-- ==== Sys2Proof/Word.lean ====
section
/-! DEFINITION. The word types of the core: 8-bit bytes (00_scope.md R7) and 16-bit addresses
(00_scope.md R8). Every value is unsigned (R13). -/

namespace Sys2Proof

/-- A register's content, a value operand or a memory cell: 8 bits, unsigned (R7, R13). -/
abbrev Byte := BitVec 8

/-- The program counter's content or an address operand: 16 bits, unsigned (R8, R13, R51). -/
abbrev Addr := BitVec 16

end Sys2Proof
end

