-- ==== Sys2Proof/Machine/Alu.lean ====
section
/-! DEFINITION. The ALU's four arithmetic functions: the exact result, reduced modulo 256
(45_arithmetic.md R155, R156). The sum and the difference are computed on integers and narrowed at
the end; carries and borrows are discarded (10_state.md R41). -/

namespace Sys2Proof.Machine

/-- An integer reduced modulo 256 into a byte (R156). -/
def narrow (z : Int) : Byte := BitVec.ofInt 8 z

/-- `add(p, q) = (p + q) mod 256` (R155). -/
def aluAdd (p q : Byte) : Byte := narrow ((p.toNat : Int) + (q.toNat : Int))

/-- `sub(p, q) = (p − q) mod 256` (R155). -/
def aluSub (p q : Byte) : Byte := narrow ((p.toNat : Int) - (q.toNat : Int))

/-- `inc(p) = (p + 1) mod 256` (R155). -/
def aluInc (p : Byte) : Byte := narrow ((p.toNat : Int) + 1)

/-- `dec(p) = (p − 1) mod 256` (R155). -/
def aluDec (p : Byte) : Byte := narrow ((p.toNat : Int) - 1)

end Sys2Proof.Machine
end

