-- ==== Sys2Proof/Config.lean ====
section
/-! DEFINITION. The implementation parameters of 00_scope.md section 3, and the free values: what the
spec leaves open is an opaque constant here, which no proof can evaluate. -/

namespace Sys2Proof

/-- `MEM_SIZE`: the number of memory cells; the valid addresses are 0x0000..0xFFFE (R6). -/
def Config.memSize : Nat := 65535

/-- `LOAD_BASE`: the address of the first program byte (R9). -/
def Config.loadBase : Addr := 0x8000#16

/-- `MAX_PROGRAM`: the largest program length in bytes (R9). -/
def Config.maxProgram : Nat := 32767

/-- `INPUT_ADDR`: the cell the loop writes the polled status byte to (R10, R103). -/
def Config.inputAddr : Nat := 0x0100

/-- `DISPLAY_BASE`: the first cell of the display region (R10). -/
def Config.displayBase : Nat := 0x0200

/-- The longest instruction, in bytes (R76). -/
def Config.maxInstrLength : Nat := 4

/-- `DISPLAY_LEN`: OPEN in the spec (R11, U14). No core rule depends on it (log entry 7). -/
opaque Config.displayLen : Nat

/-- What `poll_input` answers in host phase `n` once the State's listed answers are used up:
any byte or none (R188, R190, U12; log entry 1). -/
opaque Config.freePoll : Nat → Option Byte

/-- What `cancellation_requested` answers in host phase `n` once the State's listed answers are used
up: any boolean (R189, R190, U13; log entry 1). -/
opaque Config.freeCancel : Nat → Bool

/-- The `pc` after a fatal decode or execute error in an iteration that follows host phase `n`:
unspecified, any value (R116, U7; log entry 2). -/
opaque Config.freePc : Nat → Addr

end Sys2Proof
end

