-- ==== Sys2Proof/Syntax.lean ====
section
/-! DEFINITION. The instructions: one constructor per row of spec/opcode_table.json (30_encoding.md
R85), with the operands in the byte order of R83. A register operand is one of the four registers: the
check of R79 is made once, when a byte is decoded, and an index outside 0..3 never reaches an
instruction (R34). -/

namespace Sys2Proof

/-- The four general registers (10_state.md R30). -/
inductive Reg where
  | r0
  | r1
  | r2
  | r3
  deriving DecidableEq, Repr

/-- The 17 opcodes (R85). -/
inductive Opcode where
  | halt
  | nop
  | loadImmediate
  | loadRegister
  | loadMemory
  | storeMemory
  | cmpEqReg
  | cmpEqImm
  | cmpGtReg
  | cmpLtReg
  | jumpIf
  | inc
  | dec
  | addReg
  | subReg
  | addImm
  | subImm
  deriving DecidableEq, Repr

/-- The instructions with their operands (R83, R85). -/
inductive Instr where
  | halt
  | nop
  | loadImmediate (dest : Reg) (value : Byte)
  | loadRegister (dest src : Reg)
  | loadMemory (dest : Reg) (address : Addr)
  | storeMemory (address : Addr) (src : Reg)
  | cmpEqReg (a b dest : Reg)
  | cmpEqImm (a : Reg) (value : Byte) (dest : Reg)
  | cmpGtReg (a b dest : Reg)
  | cmpLtReg (a b dest : Reg)
  | jumpIf (condReg : Reg) (target : Addr)
  | inc (r : Reg)
  | dec (r : Reg)
  | addReg (a b dest : Reg)
  | subReg (a b dest : Reg)
  | addImm (a : Reg) (value : Byte) (dest : Reg)
  | subImm (a : Reg) (value : Byte) (dest : Reg)
  deriving DecidableEq, Repr

/-- The register an instruction writes, for the thirteen that write one (10_state.md R32). -/
def Instr.destination : Instr → Option Reg
  | .halt | .nop | .storeMemory _ _ | .jumpIf _ _ => none
  | .loadImmediate d _ | .loadRegister d _ | .loadMemory d _ => some d
  | .cmpEqReg _ _ d | .cmpEqImm _ _ d | .cmpGtReg _ _ d | .cmpLtReg _ _ d => some d
  | .inc r | .dec r => some r
  | .addReg _ _ d | .subReg _ _ d | .addImm _ _ d | .subImm _ _ d => some d

end Sys2Proof
end

