-- ==== Sys2Proof/WellFormed.lean ====
section
/-! DEFINITION. Well-formedness. A term of `Instr` is well-formed by its type (a register operand is a
`Reg`), so the checks here are on what an instruction is made from or placed in: the raw word of an
instruction against the match, mask and reg_mask of spec/opcode_table.json (30_encoding.md R93), the
place of an instruction in memory (R94), and the length of a program image (70_reset_and_hazards.md
R202, R203). The masks are written from the opcode table, independently of the decoder. -/

namespace Sys2Proof

/-- A row of spec/opcode_table.json: `W & mask = match` selects the instruction and
`W & reg_mask = 0` says that its register bytes are valid (R93). -/
structure TableRow where
  opcode    : Opcode
  length    : Nat
  matchBits : Nat
  mask      : Nat
  regMask   : Nat
  deriving DecidableEq, Repr

/-- The rows of one to three bytes: formats O, OR, ORI and ORR (R82). -/
def opcodeTableShort : List TableRow := [
  ⟨.halt, 1, 0x00, 0xFF, 0x00⟩,
  ⟨.nop, 1, 0xFF, 0xFF, 0x00⟩,
  ⟨.inc, 2, 0x5000, 0xFF00, 0x00FC⟩,
  ⟨.dec, 2, 0x5100, 0xFF00, 0x00FC⟩,
  ⟨.loadImmediate, 3, 0x100000, 0xFF0000, 0x00FC00⟩,
  ⟨.loadRegister, 3, 0x110000, 0xFF0000, 0x00FCFC⟩]

/-- The rows of four bytes: formats ORA, OAR, ORRR and ORIR (R82). -/
def opcodeTableLong : List TableRow := [
  ⟨.loadMemory, 4, 0x12000000, 0xFF000000, 0x00FC0000⟩,
  ⟨.storeMemory, 4, 0x20000000, 0xFF000000, 0x000000FC⟩,
  ⟨.cmpEqReg, 4, 0x30000000, 0xFF000000, 0x00FCFCFC⟩,
  ⟨.cmpEqImm, 4, 0x31000000, 0xFF000000, 0x00FC00FC⟩,
  ⟨.cmpGtReg, 4, 0x32000000, 0xFF000000, 0x00FCFCFC⟩,
  ⟨.cmpLtReg, 4, 0x33000000, 0xFF000000, 0x00FCFCFC⟩,
  ⟨.jumpIf, 4, 0x40000000, 0xFF000000, 0x00FC0000⟩,
  ⟨.addReg, 4, 0x52000000, 0xFF000000, 0x00FCFCFC⟩,
  ⟨.subReg, 4, 0x53000000, 0xFF000000, 0x00FCFCFC⟩,
  ⟨.addImm, 4, 0x54000000, 0xFF000000, 0x00FC00FC⟩,
  ⟨.subImm, 4, 0x55000000, 0xFF000000, 0x00FC00FC⟩]

/-- The opcode table (R85, R93). -/
def opcodeTable : List TableRow := opcodeTableShort ++ opcodeTableLong

/-- The instruction word of bytes read as one big-endian number, `W = B_0 ++ B_1 ++ ...` (R93). -/
def wordOf : List Byte → Nat
  | [] => 0
  | b :: bs => b.toNat * 256 ^ bs.length + wordOf bs

/-- The row accepts exactly these bytes: the right length, selected by match and mask, and every
register byte valid by reg_mask (R93). -/
def TableRow.accepts (row : TableRow) (bs : List Byte) : Bool :=
  bs.length == row.length
    && (wordOf bs &&& row.mask) == row.matchBits
    && (wordOf bs &&& row.regMask) == 0

/-- The bytes are one legal instruction, no more and no less (R87, R88, R93). -/
def legalBytes (bs : List Byte) : Bool := opcodeTable.any (·.accepts bs)

/-- An instruction of `len` bytes at address `at'` lies wholly in cells that exist (R94). -/
def fitsAt (at' len : Nat) : Bool := decide (at' + len ≤ Config.memSize)

/-- A program image that `load` accepts (R202, R203). -/
def loadable (program : List Byte) : Bool := decide (program.length ≤ Config.maxProgram)

end Sys2Proof
end

