-- ==== Sys2Proof/Decode.lean ====
section
/-! DEFINITION. The decoder, total on any bytes (30_encoding.md R90, R91), and the encoder, written from
the formats of R82 and the opcode map of R85. The decoder takes the bytes that exist from the
instruction's address on; where they end, the next fetch would be at 0xFFFF (R94). -/

namespace Sys2Proof

/-- The opcode byte of each opcode (R85). -/
def Opcode.code : Opcode → Byte
  | .halt => 0x00#8
  | .nop => 0xFF#8
  | .loadImmediate => 0x10#8
  | .loadRegister => 0x11#8
  | .loadMemory => 0x12#8
  | .storeMemory => 0x20#8
  | .cmpEqReg => 0x30#8
  | .cmpEqImm => 0x31#8
  | .cmpGtReg => 0x32#8
  | .cmpLtReg => 0x33#8
  | .jumpIf => 0x40#8
  | .inc => 0x50#8
  | .dec => 0x51#8
  | .addReg => 0x52#8
  | .subReg => 0x53#8
  | .addImm => 0x54#8
  | .subImm => 0x55#8

/-- The instruction length in bytes, a function of the opcode alone (R76, R82). -/
def Opcode.length : Opcode → Nat
  | .halt | .nop => 1
  | .inc | .dec => 2
  | .loadImmediate | .loadRegister => 3
  | .loadMemory | .storeMemory | .cmpEqReg | .cmpEqImm | .cmpGtReg | .cmpLtReg | .jumpIf
  | .addReg | .subReg | .addImm | .subImm => 4

/-- All opcodes, in the order of R85. -/
def Opcode.all : List Opcode :=
  [.halt, .loadImmediate, .loadRegister, .loadMemory, .storeMemory, .cmpEqReg, .cmpEqImm, .cmpGtReg,
    .cmpLtReg, .jumpIf, .inc, .dec, .addReg, .subReg, .addImm, .subImm, .nop]

/-- The opcode a byte selects, decoded as a whole (R77); none for the 239 illegal bytes (R87). -/
def opcodeOf (b : Byte) : Option Opcode := Opcode.all.find? (fun o => o.code == b)

/-- The opcode of an instruction (R85). -/
def Instr.opcode : Instr → Opcode
  | .halt => .halt
  | .nop => .nop
  | .loadImmediate _ _ => .loadImmediate
  | .loadRegister _ _ => .loadRegister
  | .loadMemory _ _ => .loadMemory
  | .storeMemory _ _ => .storeMemory
  | .cmpEqReg _ _ _ => .cmpEqReg
  | .cmpEqImm _ _ _ => .cmpEqImm
  | .cmpGtReg _ _ _ => .cmpGtReg
  | .cmpLtReg _ _ _ => .cmpLtReg
  | .jumpIf _ _ => .jumpIf
  | .inc _ => .inc
  | .dec _ => .dec
  | .addReg _ _ _ => .addReg
  | .subReg _ _ _ => .subReg
  | .addImm _ _ _ => .addImm
  | .subImm _ _ _ => .subImm

/-- The length of an instruction in bytes (R76). -/
def Instr.length (i : Instr) : Nat := i.opcode.length

/-- Why bytes are no instruction, in the decoder's own terms (R90). -/
inductive DecodeError where
  /-- The opcode byte is none of R85 (R87). -/
  | unknownOpcode
  /-- A register-index byte is 4..255 (R79, R88). -/
  | invalidRegisterIndex
  /-- The next byte to fetch does not exist: it would be at 0xFFFF (R94, R106). -/
  | outOfBytes
  deriving DecidableEq, Repr

/-- What a fetch from the remaining bytes gives: the value and the bytes after it. -/
abbrev Fetched (α : Type) := Except DecodeError (α × List Byte)

/-- Go on with what was fetched and the bytes after it; the first error stops the decoding (R84). -/
def Fetched.andThen {α β : Type} (x : Fetched α) (k : α → List Byte → Fetched β) : Fetched β :=
  match x with
  | .ok (v, bs) => k v bs
  | .error e => .error e

/-- `Fetch()` on the remaining bytes (R106). -/
def fetchByte : List Byte → Fetched Byte
  | [] => .error .outOfBytes
  | b :: bs => .ok (b, bs)

/-- The register a register-index byte names: its number is `b[1:0]`, valid when `b ≤ 3` (R79). -/
def regOf (b : Byte) : Option Reg :=
  match b.toNat with
  | 0 => some .r0
  | 1 => some .r1
  | 2 => some .r2
  | 3 => some .r3
  | _ => none

/-- `FetchReg()`: fetch a register-index operand and validate it as it is read (R79, R107). -/
def fetchReg : List Byte → Fetched Reg
  | [] => .error .outOfBytes
  | b :: bs =>
    match regOf b with
    | some r => .ok (r, bs)
    | none => .error .invalidRegisterIndex

/-- `FetchImm()`: the raw byte (R81, R108). -/
def fetchImm (bs : List Byte) : Fetched Byte := fetchByte bs

/-- The address `hi ++ lo = hi * 256 + lo` (R12, R80). -/
def joinAddr (hi lo : Byte) : Addr := BitVec.ofNat 16 (hi.toNat * 256 + lo.toNat)

/-- `FetchAddr()`: two bytes, most significant first (R80, R109). -/
def fetchAddr : List Byte → Fetched Addr
  | hi :: lo :: bs => .ok (joinAddr hi lo, bs)
  | _ => .error .outOfBytes

/-- The operands of format ORRR: three registers (R82). -/
def fetchThreeRegs (mk : Reg → Reg → Reg → Instr) (bs : List Byte) : Fetched Instr :=
  (fetchReg bs).andThen fun a bs =>
  (fetchReg bs).andThen fun b bs =>
  (fetchReg bs).andThen fun d bs =>
  .ok (mk a b d, bs)

/-- The operands of format ORIR: register, value, register (R82). -/
def fetchRegImmReg (mk : Reg → Byte → Reg → Instr) (bs : List Byte) : Fetched Instr :=
  (fetchReg bs).andThen fun a bs =>
  (fetchImm bs).andThen fun v bs =>
  (fetchReg bs).andThen fun d bs =>
  .ok (mk a v d, bs)

/-- The operands of format ORA: register, address (R82). -/
def fetchRegAddr (mk : Reg → Addr → Instr) (bs : List Byte) : Fetched Instr :=
  (fetchReg bs).andThen fun r bs =>
  (fetchAddr bs).andThen fun A bs =>
  .ok (mk r A, bs)

/-- The operands of format OAR: address, register (R82). -/
def fetchAddrReg (mk : Addr → Reg → Instr) (bs : List Byte) : Fetched Instr :=
  (fetchAddr bs).andThen fun A bs =>
  (fetchReg bs).andThen fun s bs =>
  .ok (mk A s, bs)

/-- The operands of format ORI: register, value (R82). -/
def fetchRegImm (mk : Reg → Byte → Instr) (bs : List Byte) : Fetched Instr :=
  (fetchReg bs).andThen fun d bs =>
  (fetchImm bs).andThen fun v bs =>
  .ok (mk d v, bs)

/-- The operands of format ORR: two registers (R82). -/
def fetchTwoRegs (mk : Reg → Reg → Instr) (bs : List Byte) : Fetched Instr :=
  (fetchReg bs).andThen fun d bs =>
  (fetchReg bs).andThen fun s bs =>
  .ok (mk d s, bs)

/-- The operand of format OR: one register (R82). -/
def fetchOneReg (mk : Reg → Instr) (bs : List Byte) : Fetched Instr :=
  (fetchReg bs).andThen fun r bs =>
  .ok (mk r, bs)

/-- The operands of each opcode, fetched in increasing address order (R83, R84, R91). JUMP_IF's
target is fetched here whether or not the jump is taken, which R147 proves to be the same
(log entry 9). -/
def decodeOperands (o : Opcode) (bs : List Byte) : Fetched Instr :=
  match o with
  | .halt => .ok (.halt, bs)
  | .nop => .ok (.nop, bs)
  | .loadImmediate => fetchRegImm .loadImmediate bs
  | .loadRegister => fetchTwoRegs .loadRegister bs
  | .loadMemory => fetchRegAddr .loadMemory bs
  | .storeMemory => fetchAddrReg .storeMemory bs
  | .cmpEqReg => fetchThreeRegs .cmpEqReg bs
  | .cmpEqImm => fetchRegImmReg .cmpEqImm bs
  | .cmpGtReg => fetchThreeRegs .cmpGtReg bs
  | .cmpLtReg => fetchThreeRegs .cmpLtReg bs
  | .jumpIf => fetchRegAddr .jumpIf bs
  | .inc => fetchOneReg .inc bs
  | .dec => fetchOneReg .dec bs
  | .addReg => fetchThreeRegs .addReg bs
  | .subReg => fetchThreeRegs .subReg bs
  | .addImm => fetchRegImmReg .addImm bs
  | .subImm => fetchRegImmReg .subImm bs

/-- Decode the instruction at the head of the bytes: the instruction and the bytes after it, or the
first error in the order of 60_exceptions.md R178 (R91). -/
def decode : List Byte → Fetched Instr
  | [] => .error .outOfBytes
  | op :: bs =>
    match opcodeOf op with
    | some o => decodeOperands o bs
    | none => .error .unknownOpcode

/-- The register-index byte of a register (R79). -/
def Reg.byte : Reg → Byte
  | .r0 => 0x00#8
  | .r1 => 0x01#8
  | .r2 => 0x02#8
  | .r3 => 0x03#8

/-- Bits [15:8] of an address: its first operand byte (R80). -/
def addrHi (A : Addr) : Byte := BitVec.ofNat 8 (A.toNat / 256)

/-- Bits [7:0] of an address: its second operand byte (R80). -/
def addrLo (A : Addr) : Byte := BitVec.ofNat 8 (A.toNat % 256)

/-- The operand bytes of an instruction, in address order (R82, R83). -/
def Instr.operandBytes : Instr → List Byte
  | .halt => []
  | .nop => []
  | .loadImmediate d v => [d.byte, v]
  | .loadRegister d s => [d.byte, s.byte]
  | .loadMemory d A => [d.byte, addrHi A, addrLo A]
  | .storeMemory A s => [addrHi A, addrLo A, s.byte]
  | .cmpEqReg a b d => [a.byte, b.byte, d.byte]
  | .cmpEqImm a v d => [a.byte, v, d.byte]
  | .cmpGtReg a b d => [a.byte, b.byte, d.byte]
  | .cmpLtReg a b d => [a.byte, b.byte, d.byte]
  | .jumpIf c T => [c.byte, addrHi T, addrLo T]
  | .inc r => [r.byte]
  | .dec r => [r.byte]
  | .addReg a b d => [a.byte, b.byte, d.byte]
  | .subReg a b d => [a.byte, b.byte, d.byte]
  | .addImm a v d => [a.byte, v, d.byte]
  | .subImm a v d => [a.byte, v, d.byte]

/-- The one encoding of an instruction (R75, R82, R95). -/
def encode (i : Instr) : List Byte := i.opcode.code :: i.operandBytes

/-- The low `8 * n` bits of `w` as `n` bytes, the most significant first (R93). -/
def bytesBE : (n w : Nat) → List Byte
  | 0, _ => []
  | n + 1, w => BitVec.ofNat 8 (w / 256 ^ n) :: bytesBE n w

/-- The bytes in memory of a table word of `nbits` bits: spec/opcode_table.json numbers an
instruction as ONE big-endian word whose first byte is its most significant (R82, R93; log entry
10); zero bytes follow up to the longest instruction. -/
def tableWordBytes (nbits w : Nat) : List Byte :=
  (bytesBE (nbits / 8) w ++ List.replicate Config.maxInstrLength 0x00#8).take
    Config.maxInstrLength

/-- The instruction the decoder reads from a table word (R93). -/
def decodeTableWord (nbits w : Nat) : Option Instr :=
  match decode (tableWordBytes nbits w) with
  | .ok (i, _) => some i
  | .error _ => none

end Sys2Proof
end

