-- ==== Sys2Proof/Machine/State.lean ====
section
/-! DEFINITION. The state of the core as plain data: the register file, the program counter, the memory
array and the run status, which 10_state.md R49 says are all of it, and the model's own fields that
hold the host interface's inputs and outputs (60_exceptions.md R186). -/

namespace Sys2Proof.Machine

/-- The register file: four 8-bit registers (R30). -/
structure RegFile where
  r0 : Byte
  r1 : Byte
  r2 : Byte
  r3 : Byte
  deriving DecidableEq, Repr

/-- The memory array as the cells whose byte is not 0x00, by strictly rising address. An address that
is not listed reads 0x00 (R46, R66). -/
abbrev Memory := List Host.Cell

/-- The kinds of fatal error (60_exceptions.md R170). -/
inductive ErrorKind where
  | invalidRegisterIndex
  | unknownOpcode
  | programTooLarge
  | adapterCancelled
  | addressOutOfRange
  deriving DecidableEq, Repr

/-- The run status (R43). -/
inductive Status where
  | idle
  | running
  | halted
  | failed (kind : ErrorKind)
  deriving DecidableEq, Repr

/-- What the adapter answers in one host phase: the byte `poll_input` returns, if any, and whether
cancellation is requested (R101, R188, R189). -/
structure AdapterAnswer where
  poll   : Option Byte
  cancel : Bool
  deriving DecidableEq, Repr

/-- A call the host makes on the core outside a run (R186). -/
inductive HostCall where
  | load (program : List Byte)
  | run
  deriving DecidableEq, Repr

/-- What `load` has reported so far (R203, R204). -/
inductive LoadResult where
  | notCalled
  | accepted
  | programTooLarge
  deriving DecidableEq, Repr

/-- The state. `regs`, `pc`, `mem` and `status` are the spec's (R49). The other fields are the
model's own: `calls`, the host calls still to come (log entry 4); `loadResult`, the record of `load`
(log entry 5); `adapter`, the answers of the coming host phases (log entry 1); `hostPhases`, how many
host phases there have been, which is also the index of the free values (log entries 1 and 2);
`rendered`, the memory that the latest `render` call was given (log entry 6). -/
structure State where
  regs       : RegFile
  pc         : Addr
  mem        : Memory
  status     : Status
  calls      : List HostCall
  loadResult : LoadResult
  adapter    : List AdapterAnswer
  hostPhases : Nat
  rendered   : Option Memory
  deriving DecidableEq, Repr

/-- Why the machine makes no move. -/
inductive Fault where
  /-- Raised by the step when the core is not running and no host call is pending: nothing can happen
  until the host calls `load` or `run` (R44, R118, R205). Safe. -/
  | awaitingHost
  deriving DecidableEq, Repr

/-- What the model has no meaning for. -/
inductive Refusal where
  /-- Raised by the arm of an instruction that has no meaning yet; no arm raises it. Safe. -/
  | notModelled (mnemonic : String)
  /-- Raised by a second `load` call: outside the spec, "a model refuses it" (R204, U10). Safe. -/
  | secondLoad
  /-- Raised by a `load` call after a run: `load` comes before `run` (R204). Safe. -/
  | loadAfterRun
  /-- Raised by a `run` call on a failed instance: outside the spec, "a model refuses it" (R208, U11).
  Safe. -/
  | runAfterFailed
  /-- Raised by a host call during a run: the host's duty excludes it (R190). Safe; the step never
  makes one. -/
  | callDuringRun
  deriving DecidableEq, Repr

/-- Every register zero (R33). -/
def RegFile.zero : RegFile := ⟨0x00#8, 0x00#8, 0x00#8, 0x00#8⟩

/-- The state after construction, which is the only reset (70_reset_and_hazards.md R200, R201): the
registers 0x00, `pc` 0x0000, every cell 0x00, the status Idle. Nothing has been called, answered or
rendered yet (log entries 1, 2, 4, 5, 6). -/
def State.reset : State where
  regs := RegFile.zero
  pc := 0x0000#16
  mem := []
  status := .idle
  calls := []
  loadResult := .notCalled
  adapter := []
  hostPhases := 0
  rendered := none

end Sys2Proof.Machine
end

