-- ==== Sys2Proof/Machine/Ops.lean ====
section
/-! DEFINITION. The named operations over registers and memory, and the two ways a run ends: a fatal
error (the one shared operation `State.raise`) and HALT. The core has no trap entry and no trap
return (60_exceptions.md R180, R181): a fatal error saves nothing and goes to no handler. -/

namespace Sys2Proof.Machine

/-- What a meaning answers. -/
abbrev Result := Host.Outcome State Fault Refusal

/-- `x[i]` of a register file (00_scope.md R15). -/
def RegFile.read (f : RegFile) : Reg → Byte
  | .r0 => f.r0
  | .r1 => f.r1
  | .r2 => f.r2
  | .r3 => f.r3

/-- `x[i] <- v` of a register file (00_scope.md R15). -/
def RegFile.write (f : RegFile) (r : Reg) (v : Byte) : RegFile :=
  match r with
  | .r0 => { f with r0 := v }
  | .r1 => { f with r1 := v }
  | .r2 => { f with r2 := v }
  | .r3 => { f with r3 := v }

/-- What a cell that is not listed reads as (10_state.md R46). -/
def Memory.unlisted : Byte := 0x00#8

/-- The byte at an address: the listed one, else 0x00 (R46, R66). -/
def Memory.get (m : Memory) (a : Nat) : Byte :=
  match m with
  | [] => Memory.unlisted
  | c :: m => if c.1 = a then c.2 else Memory.get m a

/-- The memory without the cells listed at `a`. -/
def Memory.erase (m : Memory) (a : Nat) : Memory :=
  match m with
  | [] => []
  | c :: m => if c.1 = a then Memory.erase m a else c :: Memory.erase m a

/-- The memory with the cell `(a, v)` listed at its place by address. -/
def Memory.insert (m : Memory) (a : Nat) (v : Byte) : Memory :=
  match m with
  | [] => [(a, v)]
  | c :: m => if a < c.1 then (a, v) :: c :: m else c :: Memory.insert m a v

/-- One cell changed, in canonical form: writing 0x00 leaves the address unlisted. -/
def Memory.set (m : Memory) (a : Nat) (v : Byte) : Memory :=
  if v = Memory.unlisted then Memory.erase m a else Memory.insert (Memory.erase m a) a v

/-- Consecutive cells changed, in increasing address order (70_reset_and_hazards.md R202). -/
def Memory.setAll (m : Memory) (a : Nat) : List Byte → Memory
  | [] => m
  | b :: bs => Memory.setAll (m.set a b) (a + 1) bs

/-- The canonical form from address `lo` on: addresses strictly rising, each that of a cell that
exists, and no byte that an unlisted address reads as. -/
def Memory.wfFrom (lo : Nat) : Memory → Bool
  | [] => true
  | c :: m =>
    decide (lo ≤ c.1) && decide (c.1 < Config.memSize) && decide (c.2 ≠ Memory.unlisted)
      && Memory.wfFrom (c.1 + 1) m

/-- The canonical form of a memory: equal memories are equal data. -/
def Memory.wf (m : Memory) : Bool := Memory.wfFrom 0 m

/-- `MemRead(addr, 1)` (20_memory.md R53). -/
def memRead (m : Memory) (a : Addr) : Except ErrorKind Byte :=
  if a.toNat < Config.memSize then .ok (m.get a.toNat) else .error .addressOutOfRange

/-- `MemWrite(addr, 1, v)` (20_memory.md R54). -/
def memWrite (m : Memory) (a : Addr) (v : Byte) : Except ErrorKind Memory :=
  if a.toNat < Config.memSize then .ok (m.set a.toNat v) else .error .addressOutOfRange

/-- `x[i]` (00_scope.md R15). -/
def State.readReg (s : State) (r : Reg) : Byte := s.regs.read r

/-- `x[i] <- v` (00_scope.md R15). -/
def State.writeReg (s : State) (r : Reg) (v : Byte) : State :=
  { s with regs := s.regs.write r v }

/-- `pc <- t` (00_scope.md R17). -/
def State.setPc (s : State) (t : Addr) : State := { s with pc := t }

/-- The memory replaced. -/
def State.setMem (s : State) (m : Memory) : State := { s with mem := m }

/-- The `pc` a fatal error leaves: unchanged by a cancellation, which fetches nothing (R104);
unspecified after the other kinds (R116, D5; log entry 2). -/
def State.pcAfterError (s : State) : ErrorKind → Addr
  | .adapterCancelled => s.pc
  | .invalidRegisterIndex | .unknownOpcode | .programTooLarge | .addressOutOfRange =>
    Config.freePc s.hostPhases

/-- `raise K`: the run ends with Failed(K), and nothing is written (00_scope.md R18,
40_fetch_decode_execute.md R114, R116, 60_exceptions.md R171, R180). -/
def State.raise (s : State) (k : ErrorKind) : State :=
  { s with status := .failed k, pc := s.pcAfterError k }

/-- `halt`: the run ends with Halted (R18, R120). -/
def State.halt (s : State) : State := { s with status := .halted }

/-- The error kind of a decoding error: a byte that does not exist is at 0xFFFF (R90, R106). -/
def errorKindOf : DecodeError → ErrorKind
  | .unknownOpcode => .unknownOpcode
  | .invalidRegisterIndex => .invalidRegisterIndex
  | .outOfBytes => .addressOutOfRange

/-- The numeric code of a run status (10_state.md R45). -/
def Status.code : Status → Nat
  | .idle => 0
  | .running => 1
  | .halted => 2
  | .failed _ => 3

/-- The numeric code of an error kind (R45). -/
def ErrorKind.code : ErrorKind → Nat
  | .invalidRegisterIndex => 1
  | .unknownOpcode => 2
  | .programTooLarge => 3
  | .adapterCancelled => 4
  | .addressOutOfRange => 5

/-- The code of the kind of a status: 0 when it is not Failed (R45). -/
def Status.kindCode : Status → Nat
  | .failed k => k.code
  | .idle | .running | .halted => 0

end Sys2Proof.Machine
end

