-- ==== Sys2Proof/Machine/Operands.lean ====
section
/-! DEFINITION. The instruction's bytes in memory, and the operand forms of the meanings: a register, a
value, an absolute address (30_encoding.md R78), with the one write of an instruction (R114). -/

namespace Sys2Proof.Machine

/-- At most `n` bytes from address `a` on, as many as exist (20_memory.md R51, R71). -/
def bytesFrom (m : Memory) : (n a : Nat) → List Byte
  | 0, _ => []
  | n + 1, a => if a < Config.memSize then m.get a :: bytesFrom m n (a + 1) else []

/-- The bytes the decoder may fetch at `pc` (R94). -/
def State.window (s : State) : List Byte := bytesFrom s.mem Config.maxInstrLength s.pc.toNat

/-- Fetch and decode at `pc` (R91, R106, R110): the instruction, or the error kind to raise. -/
def State.fetchDecode (s : State) : Except ErrorKind Instr :=
  match decode s.window with
  | .ok (i, _) => .ok i
  | .error e => .error (errorKindOf e)

/-- The state after all bytes of the instruction are fetched: `pc = J + L` (10_state.md R36). -/
def State.advance (s : State) (i : Instr) : State :=
  { s with pc := s.pc + BitVec.ofNat 16 i.length }

/-- An instruction whose one write is a register (R114). -/
def commitReg (d : Reg) (v : Byte) (s : State) : Result := .next (s.writeReg d v)

/-- The absolute address form as a source: `v <- MemRead(A, 1); x[d] <- v` (42_load_store.md R127). -/
def commitLoad (d : Reg) (A : Addr) (s : State) : Result :=
  match memRead s.mem A with
  | .ok v => commitReg d v s
  | .error k => .next (s.raise k)

/-- The absolute address form as a destination: `MemWrite(A, 1, v)` (R128). -/
def commitStore (A : Addr) (v : Byte) (s : State) : Result :=
  match memWrite s.mem A v with
  | .ok m => .next (s.setMem m)
  | .error k => .next (s.raise k)

/-- An instruction whose one write is `pc` (44_jump.md R145). -/
def commitPc (T : Addr) (s : State) : Result := .next (s.setPc T)

end Sys2Proof.Machine
end

