-- ==== Sys2Proof/Machine/Arithmetic.lean ====
section
/-! DEFINITION. The six arithmetic instructions (45_arithmetic.md). -/

namespace Sys2Proof.Machine

/-- INC: `x[r] <- (x[r] + 1) mod 256` (R158). -/
def execInc (r : Reg) (s : State) : Result := commitReg r (aluInc (s.readReg r)) s

/-- DEC: `x[r] <- (x[r] − 1) mod 256` (R159). -/
def execDec (r : Reg) (s : State) : Result := commitReg r (aluDec (s.readReg r)) s

/-- ADD_REG: `x[d] <- (x[a] + x[b]) mod 256` (R160). -/
def execAddReg (a b d : Reg) (s : State) : Result :=
  commitReg d (aluAdd (s.readReg a) (s.readReg b)) s

/-- SUB_REG: `x[d] <- (x[a] − x[b]) mod 256`; the first operand is the minuend (R161). -/
def execSubReg (a b d : Reg) (s : State) : Result :=
  commitReg d (aluSub (s.readReg a) (s.readReg b)) s

/-- ADD_IMM: `x[d] <- (x[a] + v) mod 256` (R162). -/
def execAddImm (a : Reg) (v : Byte) (d : Reg) (s : State) : Result :=
  commitReg d (aluAdd (s.readReg a) v) s

/-- SUB_IMM: `x[d] <- (x[a] − v) mod 256` (R163). -/
def execSubImm (a : Reg) (v : Byte) (d : Reg) (s : State) : Result :=
  commitReg d (aluSub (s.readReg a) v) s

end Sys2Proof.Machine
end

