-- ==== Sys2Proof/Machine/Flags.lean ====
section
/-! DEFINITION. The core has no flags (10_state.md R41): what stands for them are the comparator's
predicates, whose result is the byte 0x01 or 0x00, and the condition of JUMP_IF. -/

namespace Sys2Proof.Machine

/-- `(c ? 1 : 0)` (00_scope.md R14). -/
def boolByte (c : Bool) : Byte := if c then 0x01#8 else 0x00#8

/-- Equality of the comparator (43_compare.md R135). -/
def cmpEq (p q : Byte) : Byte := boolByte (decide (p.toNat = q.toNat))

/-- Unsigned greater-than of the comparator (R135). -/
def cmpGt (p q : Byte) : Byte := boolByte (decide (p.toNat > q.toNat))

/-- Unsigned less-than of the comparator (R135). -/
def cmpLt (p q : Byte) : Byte := boolByte (decide (p.toNat < q.toNat))

/-- The condition of JUMP_IF: the register holds exactly 0x01 (44_jump.md R148). -/
def jumpTaken (c : Byte) : Bool := decide (c = 0x01#8)

end Sys2Proof.Machine
end

