-- ==== Sys2Proof/Machine/Compare.lean ====
section
/-! DEFINITION. The four comparisons (43_compare.md). -/

namespace Sys2Proof.Machine

/-- CMP_EQ_REG: `x[d] <- (x[a] = x[b] ? 1 : 0)` (R136). -/
def execCmpEqReg (a b d : Reg) (s : State) : Result :=
  commitReg d (cmpEq (s.readReg a) (s.readReg b)) s

/-- CMP_EQ_IMM: `x[d] <- (x[a] = v ? 1 : 0)` (R137). -/
def execCmpEqImm (a : Reg) (v : Byte) (d : Reg) (s : State) : Result :=
  commitReg d (cmpEq (s.readReg a) v) s

/-- CMP_GT_REG: `x[d] <- (x[a] > x[b] ? 1 : 0)`, unsigned (R138). -/
def execCmpGtReg (a b d : Reg) (s : State) : Result :=
  commitReg d (cmpGt (s.readReg a) (s.readReg b)) s

/-- CMP_LT_REG: `x[d] <- (x[a] < x[b] ? 1 : 0)`, unsigned, register against register
(R86, R139, 90_conflicts.md C4). -/
def execCmpLtReg (a b d : Reg) (s : State) : Result :=
  commitReg d (cmpLt (s.readReg a) (s.readReg b)) s

end Sys2Proof.Machine
end

