-- ==== Sys2Proof/Machine/Control.lean ====
section
/-! DEFINITION. HALT and NOP (41_halt_nop.md). Every meaning takes the state after the instruction's
bytes are fetched, `pc = J + L` (log entry 11). -/

namespace Sys2Proof.Machine

/-- HALT: the loop ends with Halted; `pc` stays at J + 1 (R117, R120). -/
def execHalt (s : State) : Result := .next s.halt

/-- NOP: nothing; `pc` stays at J + 1 (R121). -/
def execNop (s : State) : Result := .next s

end Sys2Proof.Machine
end

