-- ==== Sys2Proof/Machine/Jump.lean ====
section
/-! DEFINITION. The conditional jump (44_jump.md). -/

namespace Sys2Proof.Machine

/-- JUMP_IF: `pc` becomes the target when the condition register holds exactly 0x01, and stays at
J + 4 otherwise (R145, R147, R148, 90_conflicts.md C7 and C8). -/
def execJumpIf (c : Reg) (T : Addr) (s : State) : Result :=
  if jumpTaken (s.readReg c) then commitPc T s else .next s

end Sys2Proof.Machine
end

