-- ==== Sys2Proof/Machine/LoadStore.lean ====
section
/-! DEFINITION. Loads, stores and register moves (42_load_store.md). -/

namespace Sys2Proof.Machine

/-- LOAD_IMMEDIATE: `x[d] <- v` (R125). -/
def execLoadImmediate (d : Reg) (v : Byte) (s : State) : Result := commitReg d v s

/-- LOAD_REGISTER: `x[d] <- x[s]` (R126). -/
def execLoadRegister (d src : Reg) (s : State) : Result := commitReg d (s.readReg src) s

/-- LOAD_MEMORY: `x[d] <- MemRead(A, 1)` (R127). -/
def execLoadMemory (d : Reg) (A : Addr) (s : State) : Result := commitLoad d A s

/-- STORE_MEMORY: `MemWrite(A, 1, x[s])` (R128). -/
def execStoreMemory (A : Addr) (src : Reg) (s : State) : Result :=
  commitStore A (s.readReg src) s

end Sys2Proof.Machine
end

