-- ==== Sys2Proof/Machine/Dispatch.lean ====
section
/-! DEFINITION. The meaning of each instruction, one arm per constructor (30_encoding.md R85). -/

namespace Sys2Proof.Machine

def exec (i : Instr) (s : State) : Host.Outcome State Fault Refusal :=
  match i with
  | .halt => Sys2Proof.Machine.execHalt s
  | .nop => Sys2Proof.Machine.execNop s
  | .loadImmediate d v => Sys2Proof.Machine.execLoadImmediate d v s
  | .loadRegister d src => Sys2Proof.Machine.execLoadRegister d src s
  | .loadMemory d a => Sys2Proof.Machine.execLoadMemory d a s
  | .storeMemory a src => Sys2Proof.Machine.execStoreMemory a src s
  | .cmpEqReg a b d => Sys2Proof.Machine.execCmpEqReg a b d s
  | .cmpEqImm a v d => Sys2Proof.Machine.execCmpEqImm a v d s
  | .cmpGtReg a b d => Sys2Proof.Machine.execCmpGtReg a b d s
  | .cmpLtReg a b d => Sys2Proof.Machine.execCmpLtReg a b d s
  | .jumpIf c t => Sys2Proof.Machine.execJumpIf c t s
  | .inc r => Sys2Proof.Machine.execInc r s
  | .dec r => Sys2Proof.Machine.execDec r s
  | .addReg a b d => Sys2Proof.Machine.execAddReg a b d s
  | .subReg a b d => Sys2Proof.Machine.execSubReg a b d s
  | .addImm a v d => Sys2Proof.Machine.execAddImm a v d s
  | .subImm a v d => Sys2Proof.Machine.execSubImm a v d s

end Sys2Proof.Machine
end

