-- ==== Sys2Proof/Machine/HostPhase.lean ====
section
/-! DEFINITION. The host interface: the host phase at the start of every iteration
(40_fetch_decode_execute.md R101 to R105), the host's calls `load` and `run` between runs
(70_reset_and_hazards.md R202 to R208), and the display mapping of the adapter
(60_exceptions.md R187). -/

namespace Sys2Proof.Machine

/-- What the adapter answers in the coming host phase: the next listed answer, or free draws when the
list is used up (R188, R189, R190; log entry 1). -/
def State.answer (s : State) : AdapterAnswer :=
  match s.adapter with
  | a :: _ => a
  | [] => ⟨Config.freePoll s.hostPhases, Config.freeCancel s.hostPhases⟩

/-- The byte the loop writes to 0x0100: the polled one, 0x00 for none (R103). -/
def AdapterAnswer.inputByte (a : AdapterAnswer) : Byte := a.poll.getD 0x00#8

/-- The host phase: `render` is given the memory as it stands, then the polled byte is written to
0x0100 (R101, R102, R103). -/
def State.hostPhase (s : State) : State :=
  { s with
    rendered := some s.mem
    mem := s.mem.set Config.inputAddr s.answer.inputByte
    adapter := s.adapter.tail
    hostPhases := s.hostPhases + 1 }

/-- `load(P)` (R202, R203, R204): the program copied verbatim to 0x8000 and `pc` set there, or
ProgramTooLarge reported and nothing changed. At most one call, before any run (log entry 5). -/
def performLoad (program : List Byte) (s : State) : Result :=
  match s.status, s.loadResult with
  | .idle, .notCalled =>
    if program.length ≤ Config.maxProgram then
      .next
        { s with
          mem := s.mem.setAll Config.loadBase.toNat program
          pc := Config.loadBase
          loadResult := .accepted }
    else .next { s with loadResult := .programTooLarge }
  | .idle, .accepted => .refused .secondLoad
  | .idle, .programTooLarge => .refused .secondLoad
  | .running, _ => .refused .callDuringRun
  | .halted, _ => .refused .loadAfterRun
  | .failed _, _ => .refused .loadAfterRun

/-- `run()`: the status becomes Running and the loop starts at the current `pc` (R44, R205, R208). -/
def performRun (s : State) : Result :=
  match s.status with
  | .idle => .next { s with status := .running }
  | .halted => .next { s with status := .running }
  | .failed _ => .refused .runAfterFailed
  | .running => .refused .callDuringRun

/-- The host's next call; without one nothing can happen (R44, R118; log entry 4). -/
def hostCall (s : State) : Result :=
  match s.calls with
  | [] => .fault .awaitingHost
  | .load program :: rest => performLoad program { s with calls := rest }
  | .run :: rest => performRun { s with calls := rest }

/-- The intensity the adapter presents for a display byte `p`: p⁴ as an unsigned integer, which fits
32 bits (R187). -/
def presentedIntensity (p : Byte) : BitVec 32 := BitVec.ofNat 32 (p.toNat ^ 4)

/-- Pixel `k` of the display region as the adapter reads it from a rendered memory, where it has one:
the region's length is OPEN (R11, R61, R187; log entry 7). -/
def displayPixel (snapshot : Memory) (k : Nat) : Option (BitVec 32) :=
  if k < Config.displayLen ∧ Config.displayBase + k < Config.memSize then
    some (presentedIntensity (snapshot.get (Config.displayBase + k)))
  else none

end Sys2Proof.Machine
end

