-- ==== Sys2Proof/Machine/Loop.lean ====
section
/-! DEFINITION. One iteration of the loop (40_fetch_decode_execute.md R115), and how an instruction's
bytes are placed where the next iteration fetches them. -/

namespace Sys2Proof.Machine

/-- After the host phase, fetch, decode and execute one instruction; an error of the decoder is raised
(R91, R106, R110). -/
def fetchExecute (s : State) : Result :=
  match s.fetchDecode with
  | .ok i => exec i (s.advance i)
  | .error k => .next (s.raise k)

/-- `Iteration()`: the host phase, the cancellation test, then one instruction (R104, R115). -/
def iteration (s : State) : Result :=
  if s.answer.cancel then .next (s.hostPhase.raise .adapterCancelled)
  else fetchExecute s.hostPhase

/-- Where `placeBytes` puts an instruction: at `pc`, or at 0x8000 where four bytes do not fit below
0xFFFF (log entry 12). -/
def State.placeAt (s : State) : Addr :=
  if fitsAt s.pc.toNat Config.maxInstrLength then s.pc else Config.loadBase

/-- The core running with these bytes where it fetches next, and an adapter that in the coming host
phase requests no cancellation and reports the byte that the placed instruction has at 0x0100, if it
covers that cell, so that the input write leaves it (log entry 12). -/
def State.placeBytes (s : State) (bs : List Byte) : State :=
  { s with
    pc := s.placeAt
    mem := s.mem.setAll s.placeAt.toNat bs
    status := .running
    adapter :=
      ⟨if s.placeAt.toNat ≤ Config.inputAddr then bs[Config.inputAddr - s.placeAt.toNat]? else none,
        false⟩ :: s.adapter }

end Sys2Proof.Machine
end

