-- ==== Sys2Proof/Machine/Step.lean ====
section
/-! DEFINITION. One step: an iteration while the core is running (10_state.md R44,
40_fetch_decode_execute.md R100), the host's next call otherwise (60_exceptions.md R186). -/

namespace Sys2Proof.Machine

/-- One step of the machine (R23, R100, R115). -/
def step (s : State) : Host.Outcome State Fault Refusal :=
  match s.status with
  | .running => iteration s
  | .idle => hostCall s
  | .halted => hostCall s
  | .failed _ => hostCall s

/-- The state with a table word's instruction where the very next step fetches and runs it
(log entry 12). -/
def State.withFetchWord (s : State) (nbits w : Nat) : State :=
  s.placeBytes (tableWordBytes nbits w)

end Sys2Proof.Machine
end

