-- ==== Sys2Proof/Safety.lean ====
section
/-! DEFINITION. The terms in which claims are made: when the next step fetches an instruction, which
bytes it sees, what a step leaves unchanged, how a run fails, the invariant of the machine and a safe
state. -/

namespace Sys2Proof.Machine

/-- The next step is an iteration that reaches its fetch: the core is running and the adapter does not
cancel (40_fetch_decode_execute.md R100, R104). -/
abbrev State.Fetches (s : State) : Prop := s.status = .running ∧ s.answer.cancel = false

/-- The cells from address `a` on exist and hold these bytes. -/
def bytesAt (m : Memory) : Nat → List Byte → Bool
  | _, [] => true
  | a, b :: bs =>
    decide (a < Config.memSize) && decide (m.get a = b) && bytesAt m (a + 1) bs

/-- The bytes the next iteration fetches begin with `bs`: those at J = `pc`, after the host phase
(00_scope.md R22, R101). -/
abbrev State.Sees (s : State) (bs : List Byte) : Prop :=
  bytesAt s.hostPhase.mem s.pc.toNat bs = true

/-- The fields of the host interface are the same. -/
def HostSideSame (s t : State) : Prop :=
  t.calls = s.calls ∧ t.loadResult = s.loadResult ∧ t.adapter = s.adapter
    ∧ t.hostPhases = s.hostPhases ∧ t.rendered = s.rendered

/-- Every register reads as before. -/
def RegsSame (s t : State) : Prop := ∀ r, t.readReg r = s.readReg r

/-- Every register but `d` reads as before. -/
def RegsSameBut (d : Reg) (s t : State) : Prop := ∀ r, r ≠ d → t.readReg r = s.readReg r

/-- Every cell reads as before. -/
def MemSame (s t : State) : Prop := ∀ a, t.mem.get a = s.mem.get a

/-- Every cell but the one at `a` reads as before. -/
def MemSameBut (a : Nat) (s t : State) : Prop := ∀ b, b ≠ a → t.mem.get b = s.mem.get b

/-- Nothing but register `d` and `pc` changes. -/
def OnlyRegister (d : Reg) (s t : State) : Prop :=
  RegsSameBut d s t ∧ MemSame s t ∧ t.status = s.status ∧ HostSideSame s t

/-- Nothing but the cell at `a` and `pc` changes. -/
def OnlyCell (a : Nat) (s t : State) : Prop :=
  RegsSame s t ∧ MemSameBut a s t ∧ t.status = s.status ∧ HostSideSame s t

/-- Nothing but `pc` changes. -/
def OnlyPc (s t : State) : Prop :=
  RegsSame s t ∧ MemSame s t ∧ t.status = s.status ∧ HostSideSame s t

/-- Nothing but `pc` and the status changes. -/
def OnlyPcAndStatus (s t : State) : Prop := RegsSame s t ∧ MemSame s t ∧ HostSideSame s t

/-- The next iteration fails with this kind and writes nothing: registers and memory are as after its
host phase; of `pc` nothing is said (R116, R180). -/
def FailsWith (k : ErrorKind) (s : State) : Prop :=
  ∃ t, step s = .next t ∧ t.status = .failed k ∧ OnlyPcAndStatus s.hostPhase t

/-- The kinds of operand bytes: a register-index byte, or a raw byte of a value or an address
(30_encoding.md R78). -/
inductive OperandByte where
  | regIndex
  | raw
  deriving DecidableEq, Repr

/-- The bytes that are valid for the kind (R79, R80, R81). -/
def OperandByte.legal : OperandByte → Byte → Bool
  | .regIndex, b => decide (b.toNat ≤ 3)
  | .raw, _ => true

/-- After the bytes `seen`, each operand byte in turn fails the iteration when it would be at 0xFFFF
(AddressOutOfRange) or is a register-index byte outside 0..3 (InvalidRegisterIndex), whatever the
bytes after it are (R84, 60_exceptions.md R178 item 4). -/
def OperandErrors (s : State) : (seen : List Byte) → List OperandByte → Prop
  | _, [] => True
  | seen, k :: ks =>
    (s.Sees seen → s.pc.toNat + seen.length = 0xFFFF → FailsWith .addressOutOfRange s)
      ∧ (∀ b, k.legal b = false → s.Sees (seen ++ [b]) → FailsWith .invalidRegisterIndex s)
      ∧ (∀ b, k.legal b = true → OperandErrors s (seen ++ [b]) ks)

/-- The invariant of the machine: both memories in canonical form (equal memories are equal data, no
cell at or above 0xFFFF); a run never fails with ProgramTooLarge, which only `load` reports (R176);
`render` has been called exactly when there has been a host phase (R102); and until the first run the
registers are 0x00 (R33), there has been no host phase and `pc` is the entry point: 0x8000 after a
load, else 0x0000 (R40, R205). -/
structure State.Inv (s : State) : Prop where
  memCanonical : s.mem.wf = true
  snapshotCanonical : ∀ m, s.rendered = some m → m.wf = true
  noLoadErrorInRun : s.status ≠ .failed .programTooLarge
  renderedInEveryHostPhase : s.rendered = none ↔ s.hostPhases = 0
  entryPoint : s.status = .idle →
    s.regs = RegFile.zero ∧ s.hostPhases = 0
      ∧ s.pc = (if s.loadResult = .accepted then Config.loadBase else 0x0000#16)

/-- A safe state: the run has not ended in a fatal error (60_exceptions.md R170, R177). -/
def State.Safe (s : State) : Prop := ∀ k, s.status ≠ .failed k

/-- `n` steps lead from `s` to `t`. -/
def ReachesIn (n : Nat) (s t : State) : Prop := Sys2Proof.core.run n s = .next t

end Sys2Proof.Machine
end

