-- ==== Sys2Proof/Certificates/Slice0/Obligations.lean ====
section
/-! DEFINITION. The statements for the provers, each from the numbered rules of spec/ that its docstring
names. "After the host phase" is the state `s.hostPhase` of the iteration that starts in `s`;
`s.Fetches` says that the iteration reaches its fetch, `s.Sees bs` that the bytes at J = `pc` begin
with `bs`. -/

open Sys2Proof Sys2Proof.Machine

/-- For every instruction i of all 17 opcodes, with every operand at every value the encoding
admits, and any bytes rest: decode (encode i ++ rest) is i with rest left over. (30_encoding.md
R82, R83, R85, R91) -/
def Obligations.DecodeOfEncodeIsTheInstruction : Prop :=
  ∀ (i : Instr) (rest : List Byte), decode (encode i ++ rest) = .ok (i, rest)

/-- For every instruction i there is exactly one byte string that decodes to i with nothing left
over; and whenever bytes decode to i with rest left over, the bytes are exactly encode i followed
by rest. Rests on an inference the spec marks as its own (R95: "derived: from rule R82 and rule
R85"). (30_encoding.md R82, R85, R95) -/
def Obligations.EachInstructionHasExactlyOneEncoding : Prop :=
  (∀ i : Instr, ∃! bs : List Byte, decode bs = .ok (i, []))
  ∧ ∀ (bs rest : List Byte) (i : Instr), decode bs = .ok (i, rest) → bs = encode i ++ rest

/-- For every row of the opcode table and every byte string: the bytes have the row's length, W &
mask = match and W & reg_mask = 0 (W the bytes as one big-endian word) if and only if they decode
to an instruction of the row's opcode with nothing left over; and every opcode has a row. (R93) -/
def Obligations.DecoderAcceptsExactlyTheTableWords : Prop :=
  (∀ row ∈ opcodeTable, ∀ bs : List Byte,
    row.accepts bs = true ↔ ∃ i : Instr, i.opcode = row.opcode ∧ decode bs = .ok (i, []))
  ∧ ∀ o : Opcode, ∃ row ∈ opcodeTable, row.opcode = o

/-- Nine byte strings, one or more of each format, decode to the instructions the formats of R82
and the opcode map of R85 give them. The word of CMP_LT_REG rests on the spec's own decision D12.
(30_encoding.md R82, R85, R86, 92_eei_decisions.md D12, 95_test_vectors.md) -/
def Obligations.SampleWordsDecodeAsWritten : Prop :=
  decode [0x00#8] = .ok (.halt, []) ∧ decode [0xFF#8] = .ok (.nop, [])
  ∧ decode [0x50#8, 0x03#8] = .ok (.inc .r3, [])
  ∧ decode [0x10#8, 0x02#8, 0x80#8] = .ok (.loadImmediate .r2 0x80#8, [])
  ∧ decode [0x11#8, 0x02#8, 0x01#8] = .ok (.loadRegister .r2 .r1, [])
  ∧ decode [0x12#8, 0x03#8, 0x03#8, 0x01#8] = .ok (.loadMemory .r3 0x0301#16, [])
  ∧ decode [0x20#8, 0x03#8, 0x02#8, 0x01#8] = .ok (.storeMemory 0x0302#16 .r1, [])
  ∧ decode [0x33#8, 0x00#8, 0x01#8, 0x02#8] = .ok (.cmpLtReg .r0 .r1 .r2, [])
  ∧ decode [0x55#8, 0x02#8, 0x04#8, 0x03#8] = .ok (.subImm .r2 0x04#8 .r3, [])

/-- If two byte strings with the same first byte both decode to instructions, they use the same
number of bytes, which is 1 to 4 and the length of the opcode's row of the table. (R76) -/
def Obligations.OpcodeByteAloneFixesTheLength : Prop :=
  ∀ (b : Byte) (bs bs' rest rest' : List Byte) (i i' : Instr),
    decode (b :: bs) = .ok (i, rest) → decode (b :: bs') = .ok (i', rest') →
    rest.length ≤ bs.length ∧ bs.length ≤ rest.length + 3
      ∧ bs.length - rest.length = bs'.length - rest'.length
      ∧ ∀ row ∈ opcodeTable, row.opcode = i.opcode → bs.length + 1 = rest.length + row.length

/-- FetchReg gives r0, r1, r2, r3 for the bytes 0, 1, 2, 3 and the error InvalidRegisterIndex for
every byte 4..255, whatever follows. Rests on the spec's own decision D13 (the bound of a register
index). (30_encoding.md R79, 40_fetch_decode_execute.md R107, 92_eei_decisions.md D13) -/
def Obligations.RegisterIndexBytesAreValidUpToThree : Prop :=
  ∀ rest : List Byte,
    fetchReg (0x00#8 :: rest) = .ok (.r0, rest) ∧ fetchReg (0x01#8 :: rest) = .ok (.r1, rest)
    ∧ fetchReg (0x02#8 :: rest) = .ok (.r2, rest) ∧ fetchReg (0x03#8 :: rest) = .ok (.r3, rest)
    ∧ ∀ b : Byte, 3 < b.toNat → fetchReg (b :: rest) = .error .invalidRegisterIndex

/-- For every state, registers and value: LOAD_IMMEDIATE answers a next state whose dest holds the
value, LOAD_REGISTER one whose dest holds src's old content; every other register, all memory, pc,
the status and the host fields are unchanged. (42_load_store.md R125, R126) -/
def Obligations.RegisterMovesComplete : Prop :=
  ∀ (d src : Reg) (v : Byte) (s : State),
    (∃ t, exec (.loadImmediate d v) s = .next t ∧ t.readReg d = v ∧ t.pc = s.pc ∧ OnlyRegister d s t)
    ∧ (∃ t, exec (.loadRegister d src) s = .next t ∧ t.readReg d = s.readReg src ∧ t.pc = s.pc ∧ OnlyRegister d s t)

/-- For every state: LOAD_MEMORY of an address other than 0xFFFF answers a next state whose dest
holds the byte at the address, with nothing else changed; at 0xFFFF it answers one that is
Failed(AddressOutOfRange) with registers, memory and host fields unchanged. Rests on the spec's
own decision D1. (42_load_store.md R127, 60_exceptions.md R174, 92_eei_decisions.md D1) -/
def Obligations.LoadMemoryCompletesAtEveryCell : Prop :=
  ∀ (d : Reg) (A : Addr) (s : State),
    (A ≠ 0xFFFF#16 →
      ∃ t, exec (.loadMemory d A) s = .next t ∧ t.readReg d = s.mem.get A.toNat ∧ t.pc = s.pc
        ∧ OnlyRegister d s t)
    ∧ (A = 0xFFFF#16 →
      ∃ t, exec (.loadMemory d A) s = .next t ∧ t.status = .failed .addressOutOfRange
        ∧ OnlyPcAndStatus s t)

/-- For every state: STORE_MEMORY to an address other than 0xFFFF answers a next state in which
the cell at that address holds src's content and every other cell, every register, pc, the status
and the host fields are unchanged; at 0xFFFF it answers one that is Failed(AddressOutOfRange) with
registers, memory and host fields unchanged. Rests on the spec's own decision D1.
(42_load_store.md R128, 60_exceptions.md R174, 92_eei_decisions.md D1) -/
def Obligations.StoreMemoryCompletesAtEveryCell : Prop :=
  ∀ (A : Addr) (src : Reg) (s : State),
    (A ≠ 0xFFFF#16 →
      ∃ t, exec (.storeMemory A src) s = .next t ∧ t.mem.get A.toNat = s.readReg src ∧ t.pc = s.pc
        ∧ OnlyCell A.toNat s t)
    ∧ (A = 0xFFFF#16 →
      ∃ t, exec (.storeMemory A src) s = .next t ∧ t.status = .failed .addressOutOfRange
        ∧ OnlyPcAndStatus s t)

/-- For every state and operands: CMP_EQ_REG, CMP_EQ_IMM, CMP_GT_REG and CMP_LT_REG answer a next
state whose dest holds 0x01 when the predicate holds of the old unsigned values and 0x00
otherwise; nothing else changes, also when dest is a source. The case of CMP_LT_REG rests on the
spec's own decision D12. (43_compare.md R136, R137, R138, R139, 92_eei_decisions.md D12) -/
def Obligations.ComparisonsComplete : Prop :=
  ∀ (a b d : Reg) (v : Byte) (s : State),
    (∃ t, exec (.cmpEqReg a b d) s = .next t
      ∧ t.readReg d = (if (s.readReg a).toNat = (s.readReg b).toNat then 0x01#8 else 0x00#8)
      ∧ t.pc = s.pc ∧ OnlyRegister d s t)
    ∧ (∃ t, exec (.cmpEqImm a v d) s = .next t
      ∧ t.readReg d = (if (s.readReg a).toNat = v.toNat then 0x01#8 else 0x00#8)
      ∧ t.pc = s.pc ∧ OnlyRegister d s t)
    ∧ (∃ t, exec (.cmpGtReg a b d) s = .next t
      ∧ t.readReg d = (if (s.readReg b).toNat < (s.readReg a).toNat then 0x01#8 else 0x00#8)
      ∧ t.pc = s.pc ∧ OnlyRegister d s t)
    ∧ (∃ t, exec (.cmpLtReg a b d) s = .next t
      ∧ t.readReg d = (if (s.readReg a).toNat < (s.readReg b).toNat then 0x01#8 else 0x00#8)
      ∧ t.pc = s.pc ∧ OnlyRegister d s t)

/-- For every state and operands: INC, DEC, ADD_REG, SUB_REG, ADD_IMM and SUB_IMM answer a next
state whose destination holds the exact result on the old values reduced modulo 256; nothing else
changes. (45_arithmetic.md R158, R159, R160, R161, R162, R163) -/
def Obligations.ArithmeticCompletes : Prop :=
  ∀ (a b d : Reg) (v : Byte) (s : State),
    (∃ t, exec (.inc d) s = .next t
      ∧ (t.readReg d).toNat = ((s.readReg d).toNat + 1) % 256 ∧ t.pc = s.pc ∧ OnlyRegister d s t)
    ∧ (∃ t, exec (.dec d) s = .next t
      ∧ ((t.readReg d).toNat : Int) = ((s.readReg d).toNat - 1 : Int) % 256
      ∧ t.pc = s.pc ∧ OnlyRegister d s t)
    ∧ (∃ t, exec (.addReg a b d) s = .next t
      ∧ (t.readReg d).toNat = ((s.readReg a).toNat + (s.readReg b).toNat) % 256
      ∧ t.pc = s.pc ∧ OnlyRegister d s t)
    ∧ (∃ t, exec (.subReg a b d) s = .next t
      ∧ ((t.readReg d).toNat : Int) = ((s.readReg a).toNat - (s.readReg b).toNat : Int) % 256
      ∧ t.pc = s.pc ∧ OnlyRegister d s t)
    ∧ (∃ t, exec (.addImm a v d) s = .next t
      ∧ (t.readReg d).toNat = ((s.readReg a).toNat + v.toNat) % 256
      ∧ t.pc = s.pc ∧ OnlyRegister d s t)
    ∧ (∃ t, exec (.subImm a v d) s = .next t
      ∧ ((t.readReg d).toNat : Int) = ((s.readReg a).toNat - v.toNat : Int) % 256
      ∧ t.pc = s.pc ∧ OnlyRegister d s t)

/-- For every state, condition register and target: JUMP_IF answers a next state whose pc is the
target when the register holds exactly 0x01 and is the pc after the instruction otherwise; no
register, no cell, no status and no host field changes. Rests on the spec's own decision D3 (not
taken goes to the next instruction) and on its inference R149 (any target). (44_jump.md R145,
R148, R149, 92_eei_decisions.md D3) -/
def Obligations.JumpIfCompletes : Prop :=
  ∀ (c : Reg) (T : Addr) (s : State),
    ∃ t, exec (.jumpIf c T) s = .next t
      ∧ t.pc = (if s.readReg c = 0x01#8 then T else s.pc) ∧ OnlyPc s t

/-- For every state: HALT answers a next state with status Halted, NOP one with the status
unchanged; registers, memory, pc and host fields are unchanged by both. (41_halt_nop.md R120,
R121) -/
def Obligations.HaltAndNopComplete : Prop :=
  ∀ s : State,
    (∃ t, exec .halt s = .next t ∧ t.status = .halted ∧ t.pc = s.pc ∧ OnlyPcAndStatus s t)
    ∧ (∃ t, exec .nop s = .next t ∧ t.pc = s.pc ∧ OnlyPc s t)

/-- In every iteration that fetches: when the byte at J = pc is 0x00, the next state is Halted
with pc = J + 1, and registers and memory are exactly as after the host phase of that iteration,
whose input byte stands at 0x0100. (R120) -/
def Obligations.HaltIterationFollowsItsRule : Prop :=
  ∀ s : State, s.Fetches → s.Sees [0x00#8] →
    ∃ t, step s = .next t ∧ t.status = .halted ∧ t.pc.toNat = s.pc.toNat + 1
      ∧ OnlyPcAndStatus s.hostPhase t ∧ t.mem.get 0x0100 = s.answer.inputByte

/-- In every iteration that fetches: when the byte at J = pc is 0xFF, the next state is still
Running with pc = J + 1, no register changes, and memory is as after the host phase, which wrote
the input byte to 0x0100. (R121) -/
def Obligations.NopIterationFollowsItsRule : Prop :=
  ∀ s : State, s.Fetches → s.Sees [0xFF#8] →
    ∃ t, step s = .next t ∧ t.status = .running ∧ t.pc.toNat = s.pc.toNat + 1
      ∧ OnlyPc s.hostPhase t ∧ t.mem.get 0x0100 = s.answer.inputByte

/-- In every iteration that fetches: when the bytes at J = pc are LOAD_IMMEDIATE with its
operands, dest holds the value, pc = J + 3, and nothing else changes after the host phase; an
operand byte that would be at 0xFFFF fails the iteration with AddressOutOfRange, and a register-
index byte 4..255 with InvalidRegisterIndex, in address order, with nothing written. (R125) -/
def Obligations.LoadImmediateIterationFollowsItsRule : Prop :=
  ∀ s : State, s.Fetches →
    (∀ (d : Reg) (v : Byte), s.Sees [0x10#8, d.byte, v] →
      ∃ t, step s = .next t ∧ t.readReg d = v
        ∧ t.pc.toNat = s.pc.toNat + 3 ∧ OnlyRegister d s.hostPhase t)
    ∧ OperandErrors s [0x10#8] [.regIndex, .raw]

/-- In every iteration that fetches: when the bytes at J = pc are LOAD_REGISTER with its operands,
dest holds src's old content, pc = J + 3, and nothing else changes after the host phase; an
operand byte that would be at 0xFFFF fails the iteration with AddressOutOfRange, and a register-
index byte 4..255 with InvalidRegisterIndex, in address order, with nothing written. (R126) -/
def Obligations.LoadRegisterIterationFollowsItsRule : Prop :=
  ∀ s : State, s.Fetches →
    (∀ d src : Reg, s.Sees [0x11#8, d.byte, src.byte] →
      ∃ t, step s = .next t ∧ t.readReg d = s.readReg src
        ∧ t.pc.toNat = s.pc.toNat + 3 ∧ OnlyRegister d s.hostPhase t)
    ∧ OperandErrors s [0x11#8] [.regIndex, .regIndex]

/-- In every iteration that fetches: when the bytes at J = pc are LOAD_MEMORY with its operands, A
= hh * 256 + ll: for A other than 0xFFFF dest holds the byte at A after the host phase, pc = J + 4
and nothing else changes; for A = 0xFFFF the iteration fails with AddressOutOfRange and writes
nothing; an operand byte that would be at 0xFFFF fails the iteration with AddressOutOfRange, and a
register-index byte 4..255 with InvalidRegisterIndex, in address order, with nothing written.
Rests on the spec's own decisions D1 (0xFFFF names no cell) and D4 (the order of the checks), not
on its source document. (42_load_store.md R127, 92_eei_decisions.md D1, D4, 30_encoding.md R84) -/
def Obligations.LoadMemoryIterationFollowsItsRule : Prop :=
  ∀ s : State, s.Fetches →
    (∀ (d : Reg) (hi lo : Byte), s.Sees [0x12#8, d.byte, hi, lo] →
      (hi.toNat * 256 + lo.toNat ≠ 0xFFFF →
        ∃ t, step s = .next t ∧ t.readReg d = s.hostPhase.mem.get (hi.toNat * 256 + lo.toNat)
          ∧ t.pc.toNat = s.pc.toNat + 4 ∧ OnlyRegister d s.hostPhase t)
      ∧ (hi.toNat * 256 + lo.toNat = 0xFFFF → FailsWith .addressOutOfRange s))
    ∧ OperandErrors s [0x12#8] [.regIndex, .raw, .raw]

/-- In every iteration that fetches: when the bytes at J = pc are STORE_MEMORY with its operands,
A = hh * 256 + ll: for A other than 0xFFFF the cell at A holds src's content, every other cell and
every register is as after the host phase and pc = J + 4 (also when A is one of the instruction's
own bytes); for A = 0xFFFF the iteration fails with AddressOutOfRange and writes nothing; an
operand byte that would be at 0xFFFF fails the iteration with AddressOutOfRange, and a register-
index byte 4..255 with InvalidRegisterIndex, in address order, with nothing written. Rests on the
spec's own decisions D1 (0xFFFF names no cell) and D4 (the order of the checks), not on its source
document. (42_load_store.md R128, 92_eei_decisions.md D1, D4, 30_encoding.md R84) -/
def Obligations.StoreMemoryIterationFollowsItsRule : Prop :=
  ∀ s : State, s.Fetches →
    (∀ (hi lo : Byte) (src : Reg), s.Sees [0x20#8, hi, lo, src.byte] →
      (hi.toNat * 256 + lo.toNat ≠ 0xFFFF →
        ∃ t, step s = .next t ∧ t.mem.get (hi.toNat * 256 + lo.toNat) = s.readReg src
          ∧ t.pc.toNat = s.pc.toNat + 4 ∧ OnlyCell (hi.toNat * 256 + lo.toNat) s.hostPhase t)
      ∧ (hi.toNat * 256 + lo.toNat = 0xFFFF → FailsWith .addressOutOfRange s))
    ∧ OperandErrors s [0x20#8] [.raw, .raw, .regIndex]

/-- In every iteration that fetches: when the bytes at J = pc are CMP_EQ_REG with its operands,
dest holds 0x01 when a and b are equal, else 0x00, pc = J + 4, and nothing else changes after the
host phase; an operand byte that would be at 0xFFFF fails the iteration with AddressOutOfRange,
and a register-index byte 4..255 with InvalidRegisterIndex, in address order, with nothing
written. (R136) -/
def Obligations.CmpEqRegIterationFollowsItsRule : Prop :=
  ∀ s : State, s.Fetches →
    (∀ a b d : Reg, s.Sees [0x30#8, a.byte, b.byte, d.byte] →
      ∃ t, step s = .next t ∧ t.readReg d = (if (s.readReg a).toNat = (s.readReg b).toNat then 0x01#8 else 0x00#8)
        ∧ t.pc.toNat = s.pc.toNat + 4 ∧ OnlyRegister d s.hostPhase t)
    ∧ OperandErrors s [0x30#8] [.regIndex, .regIndex, .regIndex]

/-- In every iteration that fetches: when the bytes at J = pc are CMP_EQ_IMM with its operands,
dest holds 0x01 when a equals the value, else 0x00, pc = J + 4, and nothing else changes after the
host phase; an operand byte that would be at 0xFFFF fails the iteration with AddressOutOfRange,
and a register-index byte 4..255 with InvalidRegisterIndex, in address order, with nothing
written. (R137) -/
def Obligations.CmpEqImmIterationFollowsItsRule : Prop :=
  ∀ s : State, s.Fetches →
    (∀ (a : Reg) (v : Byte) (d : Reg), s.Sees [0x31#8, a.byte, v, d.byte] →
      ∃ t, step s = .next t ∧ t.readReg d = (if (s.readReg a).toNat = v.toNat then 0x01#8 else 0x00#8)
        ∧ t.pc.toNat = s.pc.toNat + 4 ∧ OnlyRegister d s.hostPhase t)
    ∧ OperandErrors s [0x31#8] [.regIndex, .raw, .regIndex]

/-- In every iteration that fetches: when the bytes at J = pc are CMP_GT_REG with its operands,
dest holds 0x01 when a is greater than b unsigned, else 0x00, pc = J + 4, and nothing else changes
after the host phase; an operand byte that would be at 0xFFFF fails the iteration with
AddressOutOfRange, and a register-index byte 4..255 with InvalidRegisterIndex, in address order,
with nothing written. (R138) -/
def Obligations.CmpGtRegIterationFollowsItsRule : Prop :=
  ∀ s : State, s.Fetches →
    (∀ a b d : Reg, s.Sees [0x32#8, a.byte, b.byte, d.byte] →
      ∃ t, step s = .next t ∧ t.readReg d = (if (s.readReg b).toNat < (s.readReg a).toNat then 0x01#8 else 0x00#8)
        ∧ t.pc.toNat = s.pc.toNat + 4 ∧ OnlyRegister d s.hostPhase t)
    ∧ OperandErrors s [0x32#8] [.regIndex, .regIndex, .regIndex]

/-- In every iteration that fetches: when the bytes at J = pc are CMP_LT_REG with its operands,
dest holds 0x01 when a is less than b unsigned, else 0x00, both read from registers, pc = J + 4,
and nothing else changes after the host phase; an operand byte that would be at 0xFFFF fails the
iteration with AddressOutOfRange, and a register-index byte 4..255 with InvalidRegisterIndex, in
address order, with nothing written. Rests on the spec's own decisions D12 (opcode 0x33 compares
registers), D1 and D4 (errors and the order of the checks). (43_compare.md R139, 30_encoding.md
R86, 92_eei_decisions.md D12, D1, D4) -/
def Obligations.CmpLtRegIterationFollowsItsRule : Prop :=
  ∀ s : State, s.Fetches →
    (∀ a b d : Reg, s.Sees [0x33#8, a.byte, b.byte, d.byte] →
      ∃ t, step s = .next t ∧ t.readReg d = (if (s.readReg a).toNat < (s.readReg b).toNat then 0x01#8 else 0x00#8)
        ∧ t.pc.toNat = s.pc.toNat + 4 ∧ OnlyRegister d s.hostPhase t)
    ∧ OperandErrors s [0x33#8] [.regIndex, .regIndex, .regIndex]

/-- In every iteration that fetches: when the bytes at J = pc are JUMP_IF with its operands, pc
becomes exactly hh * 256 + ll when the condition register holds 0x01 and J + 4 for each of the 255
other values, and nothing else changes after the host phase; both paths fail with
AddressOutOfRange under the same condition on J: an operand byte that would be at 0xFFFF fails the
iteration with AddressOutOfRange, and a register-index byte 4..255 with InvalidRegisterIndex, in
address order, with nothing written. Rests on the spec's own decisions D2 (no wrap of the skip)
and D3 (not taken goes to J + 4) and on its inference R147 (log entry 9). (44_jump.md R145, R146,
R147, R148, 92_eei_decisions.md D2, D3) -/
def Obligations.JumpIfIterationFollowsItsRule : Prop :=
  ∀ s : State, s.Fetches →
    (∀ (c : Reg) (hi lo : Byte), s.Sees [0x40#8, c.byte, hi, lo] →
      ∃ t, step s = .next t ∧ OnlyPc s.hostPhase t
        ∧ (s.readReg c = 0x01#8 → t.pc.toNat = hi.toNat * 256 + lo.toNat)
        ∧ (s.readReg c ≠ 0x01#8 → t.pc.toNat = s.pc.toNat + 4))
    ∧ OperandErrors s [0x40#8] [.regIndex, .raw, .raw]

/-- In every iteration that fetches: when the bytes at J = pc are INC with its operands, the
register holds its old content plus 1 modulo 256, pc = J + 2, and nothing else changes after the
host phase; an operand byte that would be at 0xFFFF fails the iteration with AddressOutOfRange,
and a register-index byte 4..255 with InvalidRegisterIndex, in address order, with nothing
written. (R158) -/
def Obligations.IncIterationFollowsItsRule : Prop :=
  ∀ s : State, s.Fetches →
    (∀ r : Reg, s.Sees [0x50#8, r.byte] →
      ∃ t, step s = .next t ∧ (t.readReg r).toNat = ((s.readReg r).toNat + 1) % 256
        ∧ t.pc.toNat = s.pc.toNat + 2 ∧ OnlyRegister r s.hostPhase t)
    ∧ OperandErrors s [0x50#8] [.regIndex]

/-- In every iteration that fetches: when the bytes at J = pc are DEC with its operands, the
register holds its old content less 1 modulo 256, pc = J + 2, and nothing else changes after the
host phase; an operand byte that would be at 0xFFFF fails the iteration with AddressOutOfRange,
and a register-index byte 4..255 with InvalidRegisterIndex, in address order, with nothing
written. (R159) -/
def Obligations.DecIterationFollowsItsRule : Prop :=
  ∀ s : State, s.Fetches →
    (∀ r : Reg, s.Sees [0x51#8, r.byte] →
      ∃ t, step s = .next t ∧ ((t.readReg r).toNat : Int) = ((s.readReg r).toNat - 1 : Int) % 256
        ∧ t.pc.toNat = s.pc.toNat + 2 ∧ OnlyRegister r s.hostPhase t)
    ∧ OperandErrors s [0x51#8] [.regIndex]

/-- In every iteration that fetches: when the bytes at J = pc are ADD_REG with its operands, dest
holds the sum of a and b modulo 256, pc = J + 4, and nothing else changes after the host phase; an
operand byte that would be at 0xFFFF fails the iteration with AddressOutOfRange, and a register-
index byte 4..255 with InvalidRegisterIndex, in address order, with nothing written. (R160) -/
def Obligations.AddRegIterationFollowsItsRule : Prop :=
  ∀ s : State, s.Fetches →
    (∀ a b d : Reg, s.Sees [0x52#8, a.byte, b.byte, d.byte] →
      ∃ t, step s = .next t ∧ (t.readReg d).toNat = ((s.readReg a).toNat + (s.readReg b).toNat) % 256
        ∧ t.pc.toNat = s.pc.toNat + 4 ∧ OnlyRegister d s.hostPhase t)
    ∧ OperandErrors s [0x52#8] [.regIndex, .regIndex, .regIndex]

/-- In every iteration that fetches: when the bytes at J = pc are SUB_REG with its operands, dest
holds a less b modulo 256, pc = J + 4, and nothing else changes after the host phase; an operand
byte that would be at 0xFFFF fails the iteration with AddressOutOfRange, and a register-index byte
4..255 with InvalidRegisterIndex, in address order, with nothing written. (R161) -/
def Obligations.SubRegIterationFollowsItsRule : Prop :=
  ∀ s : State, s.Fetches →
    (∀ a b d : Reg, s.Sees [0x53#8, a.byte, b.byte, d.byte] →
      ∃ t, step s = .next t ∧ ((t.readReg d).toNat : Int) = ((s.readReg a).toNat - (s.readReg b).toNat : Int) % 256
        ∧ t.pc.toNat = s.pc.toNat + 4 ∧ OnlyRegister d s.hostPhase t)
    ∧ OperandErrors s [0x53#8] [.regIndex, .regIndex, .regIndex]

/-- In every iteration that fetches: when the bytes at J = pc are ADD_IMM with its operands, dest
holds a plus the value modulo 256, pc = J + 4, and nothing else changes after the host phase; an
operand byte that would be at 0xFFFF fails the iteration with AddressOutOfRange, and a register-
index byte 4..255 with InvalidRegisterIndex, in address order, with nothing written. (R162) -/
def Obligations.AddImmIterationFollowsItsRule : Prop :=
  ∀ s : State, s.Fetches →
    (∀ (a : Reg) (v : Byte) (d : Reg), s.Sees [0x54#8, a.byte, v, d.byte] →
      ∃ t, step s = .next t ∧ (t.readReg d).toNat = ((s.readReg a).toNat + v.toNat) % 256
        ∧ t.pc.toNat = s.pc.toNat + 4 ∧ OnlyRegister d s.hostPhase t)
    ∧ OperandErrors s [0x54#8] [.regIndex, .raw, .regIndex]

/-- In every iteration that fetches: when the bytes at J = pc are SUB_IMM with its operands, dest
holds a less the value modulo 256, pc = J + 4, and nothing else changes after the host phase; an
operand byte that would be at 0xFFFF fails the iteration with AddressOutOfRange, and a register-
index byte 4..255 with InvalidRegisterIndex, in address order, with nothing written. (R163) -/
def Obligations.SubImmIterationFollowsItsRule : Prop :=
  ∀ s : State, s.Fetches →
    (∀ (a : Reg) (v : Byte) (d : Reg), s.Sees [0x55#8, a.byte, v, d.byte] →
      ∃ t, step s = .next t ∧ ((t.readReg d).toNat : Int) = ((s.readReg a).toNat - v.toNat : Int) % 256
        ∧ t.pc.toNat = s.pc.toNat + 4 ∧ OnlyRegister d s.hostPhase t)
    ∧ OperandErrors s [0x55#8] [.regIndex, .raw, .regIndex]

/-- In every iteration that fetches: when the bytes at pc, after the host phase, decode to an
instruction i, the step is exec of i at the state after the host phase with pc advanced past i's
bytes. (40_fetch_decode_execute.md R110, R115) -/
def Obligations.StepRunsTheDecodedInstruction : Prop :=
  ∀ (s : State) (i : Instr) (rest : List Byte), s.Fetches →
    decode s.hostPhase.window = .ok (i, rest) →
    step s = exec i (s.hostPhase.advance i)

/-- Every iteration that fetches answers a next state that is Running, or Halted and then the byte
at pc was HALT's 0x00, or Failed with InvalidRegisterIndex, UnknownOpcode or AddressOutOfRange.
(R111) -/
def Obligations.EveryIterationEndsInOneOfThreeOutcomes : Prop :=
  ∀ s : State, s.Fetches →
    ∃ t, step s = .next t
      ∧ (t.status = .running
        ∨ (t.status = .halted ∧ s.Sees [0x00#8])
        ∨ t.status = .failed .invalidRegisterIndex
        ∨ t.status = .failed .unknownOpcode
        ∨ t.status = .failed .addressOutOfRange)

/-- Whenever an iteration that fetches answers a Failed state, every register, every cell and
every host field is exactly as after the host phase of that iteration. (R116) -/
def Obligations.FailedIterationWritesNothing : Prop :=
  ∀ (s t : State) (k : ErrorKind), s.Fetches → step s = .next t → t.status = .failed k →
    OnlyPcAndStatus s.hostPhase t

/-- HALT, NOP, STORE_MEMORY and JUMP_IF are the instructions without a destination register and
change no register; any other instruction changes at most its destination register; an iteration
that fails, in decoding or in executing (a LOAD_MEMORY or STORE_MEMORY of 0xFFFF), changes none
(R116); a cancelled iteration and a host call (load, run) change none. (R32) -/
def Obligations.RegistersAreWrittenOnlyByTheirInstructions : Prop :=
  (∀ i : Instr, i.destination = none ↔
    (i.opcode = .halt ∨ i.opcode = .nop ∨ i.opcode = .storeMemory ∨ i.opcode = .jumpIf))
  ∧ (∀ (s t : State) (i : Instr) (rest : List Byte), s.Fetches →
    decode s.hostPhase.window = .ok (i, rest) → step s = .next t →
    (i.destination = none → RegsSame s t)
    ∧ (∀ d, i.destination = some d → RegsSameBut d s t))
  ∧ (∀ (s t : State) (k : ErrorKind), s.Fetches → step s = .next t → t.status = .failed k →
    RegsSame s t)
  ∧ (∀ (s t : State) (e : DecodeError), s.Fetches → decode s.hostPhase.window = .error e →
    step s = .next t → RegsSame s t)
  ∧ (∀ s t : State, (s.status ≠ .running ∨ s.answer.cancel = true) → step s = .next t →
    RegsSame s t)

/-- Whenever a step changes what the cell at address a reads as: the core was running and a is
0x0100, or the iteration fetched a STORE_MEMORY whose address operand is a, or the step was a load
call on an idle core and a lies in the loaded range from 0x8000. (R47) -/
def Obligations.MemoryIsWrittenOnlyByItsThreeAgents : Prop :=
  ∀ (s t : State) (a : Nat), step s = .next t → t.mem.get a ≠ s.mem.get a →
    (s.status = .running ∧ a = 0x0100)
    ∨ (s.Fetches ∧ ∃ (hi lo : Byte) (src : Reg), s.Sees [0x20#8, hi, lo, src.byte]
        ∧ a = hi.toNat * 256 + lo.toNat)
    ∨ (s.status = .idle ∧ ∃ (program : List Byte) (rest : List HostCall),
        s.calls = .load program :: rest ∧ 0x8000 ≤ a ∧ a < 0x8000 + program.length)

/-- After an iteration that ran an instruction and did not fail, pc is J plus the instruction's
length, or the target of a JUMP_IF; a cancelled iteration leaves pc; a host call leaves pc or, for
load, sets it to 0x8000. (R37) -/
def Obligations.PcChangesOnlyByFetchJumpAndLoad : Prop :=
  (∀ (s t : State) (i : Instr) (rest : List Byte), s.Fetches →
    decode s.hostPhase.window = .ok (i, rest) → step s = .next t → t.Safe →
    t.pc.toNat = s.pc.toNat + i.length ∨ ∃ c, i = .jumpIf c t.pc)
  ∧ (∀ s t : State, s.status = .running → s.answer.cancel = true → step s = .next t → t.pc = s.pc)
  ∧ (∀ s t : State, s.status ≠ .running → step s = .next t →
    t.pc = s.pc ∨ (t.pc = 0x8000#16 ∧ ∃ program rest, s.calls = .load program :: rest))

/-- After the host phase 0x0100 reads as the byte poll_input returned, 0x00 when it returned none,
whatever it held before; every other cell, every register, pc and the status are unchanged. (R103)
-/
def Obligations.HostPhaseWritesOnlyTheInputByte : Prop :=
  ∀ s : State,
    (∀ b, s.answer.poll = some b → s.hostPhase.mem.get 0x0100 = b)
    ∧ (s.answer.poll = none → s.hostPhase.mem.get 0x0100 = 0x00#8)
    ∧ MemSameBut 0x0100 s s.hostPhase ∧ RegsSame s s.hostPhase
    ∧ s.hostPhase.pc = s.pc ∧ s.hostPhase.status = s.status

/-- Every step of a running core, whatever its outcome, answers a next state in which render has
been given the memory as it stood before the input write and the instruction, exactly one answer
of the adapter is used up, and the count of host phases is one more. The fields that record this
are the model's choice, not the spec's state: rendered (log entry 6), adapter (log entry 1) and
hostPhases (log entry 2); the count of calls (R119) is the spec's own inference.
(40_fetch_decode_execute.md R101, R102, R112, R119, notes/assumptions/1.md,
notes/assumptions/2.md, notes/assumptions/6.md) -/
def Obligations.EveryIterationMakesOneHostPhase : Prop :=
  ∀ s : State, s.status = .running →
    ∃ t, step s = .next t ∧ t.rendered = some s.mem ∧ t.adapter = s.adapter.tail
      ∧ t.hostPhases = s.hostPhases + 1

/-- When the core is running and the adapter requests cancellation, the step answers
Failed(AdapterCancelled) with pc and every register unchanged and memory as after the host phase.
Rests on the spec's own decision D9 (the input write comes before the cancellation check).
(40_fetch_decode_execute.md R104, 92_eei_decisions.md D9) -/
def Obligations.CancellationEndsTheRunBeforeTheFetch : Prop :=
  ∀ s : State, s.status = .running → s.answer.cancel = true →
    ∃ t, step s = .next t ∧ t.status = .failed .adapterCancelled ∧ t.pc = s.pc
      ∧ RegsSame s t ∧ MemSame s.hostPhase t ∧ t.mem.get 0x0100 = s.answer.inputByte

/-- When the byte at pc is in 0x01..0x0F, 0x13..0x1F, 0x21..0x2F, 0x34..0x3F, 0x41..0x4F or
0x56..0xFE, the iteration fails with UnknownOpcode and writes nothing, whatever the bytes after it
are and also where there are none. (R87, R173) -/
def Obligations.IllegalOpcodesFailTheIteration : Prop :=
  ∀ (s : State) (b : Byte), s.Fetches → s.Sees [b] →
    ((0x01 ≤ b.toNat ∧ b.toNat ≤ 0x0F) ∨ (0x13 ≤ b.toNat ∧ b.toNat ≤ 0x1F)
      ∨ (0x21 ≤ b.toNat ∧ b.toNat ≤ 0x2F) ∨ (0x34 ≤ b.toNat ∧ b.toNat ≤ 0x3F)
      ∨ (0x41 ≤ b.toNat ∧ b.toNat ≤ 0x4F) ∨ (0x56 ≤ b.toNat ∧ b.toNat ≤ 0xFE)) →
    FailsWith .unknownOpcode s

/-- When pc is 0xFFFF, an iteration that reaches its fetch fails with AddressOutOfRange and writes
nothing. Rests on the spec's own decision D1. (40_fetch_decode_execute.md R106, 10_state.md R39,
60_exceptions.md R174, 92_eei_decisions.md D1) -/
def Obligations.FetchAtTheMissingCellFails : Prop :=
  ∀ s : State, s.Fetches → s.pc = 0xFFFF#16 → FailsWith .addressOutOfRange s

/-- A core that is Idle, Halted or Failed and has no pending host call answers the fault
awaitingHost (the model's form of "returns control to the caller", log entry 4); and from a Failed
state no step answers a next state, whatever the host calls. From a Failed state run is refused by
the spec's own decision D11 (R208); that load is refused there is the model's choice loadAfterRun
(log entry 15), in line with R204 and the spec's own decision D10; the call list is the model's
choice too (log entry 4). (10_state.md R44, 60_exceptions.md R171, R181, 70_reset_and_hazards.md
R204, R208, 92_eei_decisions.md D10, D11, notes/assumptions/4.md, notes/assumptions/15.md) -/
def Obligations.StoppedCoreMakesNoMoveOfItsOwn : Prop :=
  (∀ s : State, s.status ≠ .running → s.calls = [] → step s = .fault .awaitingHost)
  ∧ (∀ (s t : State) (k : ErrorKind), s.status = .failed k → step s ≠ .next t)

/-- When the next host call is run: an Idle core (loaded, never loaded, or with a rejected load)
or a Halted one becomes Running with registers, memory, pc and everything else but the call list
unchanged, and after an accepted load, from a state that meets the invariant, that pc is 0x8000; a
Failed core is refused by the name runAfterFailed. The Halted and the Failed case rest on the
spec's own decision D11; that calls stand in a list, that a run after a rejected load is answered,
and the name of the refusal are the model's choices (log entries 4, 5 and 15). (10_state.md R44,
70_reset_and_hazards.md R205, R208, 92_eei_decisions.md D11) -/
def Obligations.RunResumesAfterHaltAndIsRefusedAfterFailure : Prop :=
  ∀ (s : State) (rest : List HostCall), s.calls = .run :: rest →
    ((s.status = .idle ∨ s.status = .halted) →
      ∃ t, step s = .next t ∧ t.status = .running ∧ t.pc = s.pc ∧ RegsSame s t ∧ MemSame s t
        ∧ t.calls = rest ∧ t.loadResult = s.loadResult ∧ t.adapter = s.adapter
        ∧ t.hostPhases = s.hostPhases ∧ t.rendered = s.rendered
        ∧ (s.Inv → s.status = .idle → s.loadResult = .accepted → t.pc = 0x8000#16))
    ∧ (∀ k, s.status = .failed k → step s = .refused .runAfterFailed)

/-- On a fresh Idle core, load of a program of at most 32767 bytes answers a next state with pc =
0x8000 in which cell 0x8000 + k holds byte k of the program for every k, every other cell reads as
before, the registers are unchanged and the status is still Idle. (R202) -/
def Obligations.LoadCopiesTheProgramVerbatim : Prop :=
  ∀ (s : State) (program : List Byte) (rest : List HostCall),
    s.status = .idle → s.loadResult = .notCalled → s.calls = .load program :: rest →
    program.length ≤ 32767 →
    ∃ t, step s = .next t ∧ t.pc = 0x8000#16
      ∧ (∀ (k : Nat) (h : k < program.length), t.mem.get (0x8000 + k) = program[k])
      ∧ (∀ a, a < 0x8000 ∨ 0x8000 + program.length ≤ a → t.mem.get a = s.mem.get a)
      ∧ RegsSame s t ∧ t.status = .idle ∧ t.calls = rest

/-- On a fresh Idle core, load of a program longer than 32767 bytes answers a next state that
records the report ProgramTooLarge; no cell, no register, not pc and not the status changes. Rests
on the spec's own decision D10; the record of the report is the model's choice (log entry 5).
(70_reset_and_hazards.md R203, 60_exceptions.md R176, 92_eei_decisions.md D10) -/
def Obligations.OversizedProgramIsRejected : Prop :=
  ∀ (s : State) (program : List Byte) (rest : List HostCall),
    s.status = .idle → s.loadResult = .notCalled → s.calls = .load program :: rest →
    32767 < program.length →
    ∃ t, step s = .next t ∧ t.loadResult = .programTooLarge ∧ t.pc = s.pc ∧ MemSame s t
      ∧ RegsSame s t ∧ t.status = .idle ∧ t.calls = rest

/-- When the next host call is load: a core on which load has been called before, or that has run,
is refused by name (secondLoad, loadAfterRun). Rests on the spec's own decision D10; that a
rejected load is the one call, and the names of the refusals, are the model's choices (log entries
5 and 15). (70_reset_and_hazards.md R204, 92_eei_decisions.md D10) -/
def Obligations.SecondLoadIsRefused : Prop :=
  ∀ (s : State) (program : List Byte) (rest : List HostCall), s.calls = .load program :: rest →
    (s.status = .idle → s.loadResult ≠ .notCalled → step s = .refused .secondLoad)
    ∧ (s.status = .halted ∨ (∃ k, s.status = .failed k) → step s = .refused .loadAfterRun)

/-- In State.reset every register reads 0x00, every cell of the address space reads 0x00, pc is
0x0000 and the status is Idle. (R200) -/
def Obligations.ResetStateIsTheConstructedCore : Prop :=
  (∀ r, State.reset.readReg r = 0x00#8)
  ∧ (∀ a : Addr, a ≠ 0xFFFF#16 → memRead State.reset.mem a = .ok 0x00#8)
  ∧ State.reset.pc = 0x0000#16 ∧ State.reset.status = .idle

/-- From State.reset with the single host call run and any uncancelled answer of the adapter, two
steps (the call, one iteration) lead to a Halted state with pc = 0x0001 and every register 0x00.
Rests on an inference the spec marks as its own (R206); how the call and the answer reach the core
is the model's choice (log entries 1 and 4). (70_reset_and_hazards.md R206, R200, 41_halt_nop.md
R120) -/
def Obligations.RunWithoutLoadHaltsInItsFirstIteration : Prop :=
  ∀ (input : Option Byte) (answers : List AdapterAnswer),
    ∃ t, ReachesIn 2
        { State.reset with calls := [.run], adapter := ⟨input, false⟩ :: answers } t
      ∧ t.status = .halted ∧ t.pc = 0x0001#16 ∧ ∀ r, t.readReg r = 0x00#8

/-- From every state that meets the invariant (both memories in canonical form with no cell at or
above 0xFFFF; no run failed with ProgramTooLarge; render called exactly when there has been a host
phase; the entry point and zero registers before the first run), every step that answers a next
state answers one that meets it. (20_memory.md R51, 10_state.md R33, R40, 60_exceptions.md R176,
70_reset_and_hazards.md R205) -/
def Obligations.EveryStepKeepsTheInvariant : Prop :=
  ∀ s t : State, s.Inv → step s = .next t → t.Inv

/-- State.reset meets the invariant that every step keeps. (70_reset_and_hazards.md R200) -/
def Obligations.ResetMeetsTheInvariant : Prop :=
  State.reset.Inv

/-- For each of the four comparisons with dest d, followed by JUMP_IF on d: both complete, and pc
is the target exactly when the predicate held of the old values, else it is unchanged by the jump.
Rests on an inference the spec marks as its own (R141: "derived: from rule R135 and 44_jump.md
rule R145") and, for CMP_LT_REG, on its own decision D12. (43_compare.md R141, R135, 44_jump.md
R145, 92_eei_decisions.md D12) -/
def Obligations.ComparisonResultDecidesTheJump : Prop :=
  ∀ (a b d : Reg) (v : Byte) (T : Addr) (s : State),
    (∃ t u, exec (.cmpEqReg a b d) s = .next t ∧ exec (.jumpIf d T) t = .next u
      ∧ u.pc = (if s.readReg a = s.readReg b then T else s.pc))
    ∧ (∃ t u, exec (.cmpEqImm a v d) s = .next t ∧ exec (.jumpIf d T) t = .next u
      ∧ u.pc = (if s.readReg a = v then T else s.pc))
    ∧ (∃ t u, exec (.cmpGtReg a b d) s = .next t ∧ exec (.jumpIf d T) t = .next u
      ∧ u.pc = (if (s.readReg b).toNat < (s.readReg a).toNat then T else s.pc))
    ∧ (∃ t u, exec (.cmpLtReg a b d) s = .next t ∧ exec (.jumpIf d T) t = .next u
      ∧ u.pc = (if (s.readReg a).toNat < (s.readReg b).toNat then T else s.pc))

/-- CMP_LT_REG a, b, t followed by CMP_EQ_IMM t, 0x00, t leaves 0x01 in t when a >= b unsigned
held of the old values and 0x00 otherwise. Rests on an inference the spec marks as its own (R140:
"derived: from rule R137 and rule R139") and, for CMP_LT_REG, on its own decision D12.
(43_compare.md R140, R137, R139, 92_eei_decisions.md D12) -/
def Obligations.GreaterOrEqualByComposition : Prop :=
  ∀ (a b d : Reg) (s : State),
    ∃ t u, exec (.cmpLtReg a b d) s = .next t ∧ exec (.cmpEqImm d 0x00#8 d) t = .next u
      ∧ u.readReg d = (if (s.readReg b).toNat ≤ (s.readReg a).toNat then 0x01#8 else 0x00#8)
      ∧ OnlyRegister d s u

/-- STORE_MEMORY to an address A other than 0xFFFF completes in a state from which an iteration at
pc = A, after its host phase, sees the stored byte first when A is not 0x0100; when A is 0x0100 it
sees the input byte of that host phase, which has overwritten the stored one. Rests on inferences
the spec marks as its own (R71, R212, and R60 for 0x0100). (20_memory.md R71, R60,
70_reset_and_hazards.md R212, 40_fetch_decode_execute.md R103) -/
def Obligations.StoredByteIsFetched : Prop :=
  ∀ (A : Addr) (src : Reg) (s : State), A ≠ 0xFFFF#16 →
    ∃ t, exec (.storeMemory A src) s = .next t
      ∧ (A ≠ 0x0100#16 → (t.setPc A).Sees [s.readReg src])
      ∧ (A = 0x0100#16 → (t.setPc A).Sees [(t.setPc A).answer.inputByte])

/-- Let the core run at J with JUMP_IF c, J there, clear of the cell 0x0100, and 0x01 in c. For
every n, if the adapter's next n answers request no cancellation, n steps lead to a Running state
at J with the registers unchanged. Rests on an inference the spec marks as its own (R151:
"derived: from rule R145 and 40_fetch_decode_execute.md rule R113"); the list of answers is the
model's choice (log entry 1). (44_jump.md R151, 40_fetch_decode_execute.md R113,
notes/assumptions/1.md) -/
def Obligations.SelfJumpRepeatsUntilCancelled : Prop :=
  ∀ (n : Nat) (s : State) (c : Reg),
    s.status = .running → n ≤ s.adapter.length → (∀ a ∈ s.adapter.take n, a.cancel = false) →
    s.pc.toNat + 4 ≤ 0x0100 ∨ 0x0100 < s.pc.toNat → s.readReg c = 0x01#8 →
    bytesAt s.mem s.pc.toNat [0x40#8, c.byte, addrHi s.pc, addrLo s.pc] = true →
    ∃ t, ReachesIn n s t ∧ t.status = .running ∧ t.pc = s.pc ∧ RegsSame s t

/-- For every state, register and byte: after the write the register reads as the byte (any of the
256 values, no register hard-wired), every other register reads as before, and pc, memory and
status are unchanged. (10_state.md R30, R31) -/
def Obligations.RegistersAreFourIndependentCells : Prop :=
  ∀ (s : State) (r : Reg) (v : Byte),
    (s.writeReg r v).readReg r = v ∧ RegsSameBut r s (s.writeReg r v)
    ∧ (s.writeReg r v).pc = s.pc ∧ (s.writeReg r v).mem = s.mem
    ∧ (s.writeReg r v).status = s.status

/-- For every memory, address and byte: a write that succeeds makes that address read as the byte
and leaves every other address reading as before, including which addresses fail. Rests on an
inference the spec marks as its own (R66) and on its own decision D1 (which address fails).
(20_memory.md R66, R53, R54, 92_eei_decisions.md D1) -/
def Obligations.ReadReturnsTheLatestWrite : Prop :=
  ∀ (m m' : Memory) (a : Addr) (v : Byte), memWrite m a v = .ok m' →
    memRead m' a = .ok v ∧ ∀ b : Addr, b ≠ a → memRead m' b = memRead m b

/-- For every memory: a read or a write at an address above 0xFFFE fails with AddressOutOfRange;
at every other address a read returns the cell's byte and a write succeeds and changes that cell
to the byte. Rests on the spec's own decision D1 (0xFFFF names no cell). (20_memory.md R53, R54,
92_eei_decisions.md D1) -/
def Obligations.OnlyTheMissingCellFails : Prop :=
  ∀ (m : Memory) (a : Addr) (v : Byte),
    (0xFFFE < a.toNat →
      memRead m a = .error .addressOutOfRange ∧ memWrite m a v = .error .addressOutOfRange)
    ∧ (a.toNat ≤ 0xFFFE →
      memRead m a = .ok (m.get a.toNat)
      ∧ ∃ m', memWrite m a v = .ok m' ∧ m'.get a.toNat = v
        ∧ ∀ b, b ≠ a.toNat → m'.get b = m.get b)

/-- For all bytes p and q: add, sub, inc and dec give the exact sum, difference, successor and
predecessor reduced modulo 256 into 0..255. The set of the four functions is the spec's own
decision D20. (45_arithmetic.md R155, R156, 92_eei_decisions.md D20) -/
def Obligations.AluWrapsModulo256 : Prop :=
  ∀ p q : Byte,
    (aluAdd p q).toNat = (p.toNat + q.toNat) % 256
    ∧ ((aluSub p q).toNat : Int) = ((p.toNat : Int) - q.toNat) % 256
    ∧ (aluInc p).toNat = (p.toNat + 1) % 256
    ∧ ((aluDec p).toNat : Int) = ((p.toNat : Int) - 1) % 256

/-- For all bytes p and q: equality, greater-than and less-than answer 0x01 exactly when the
predicate holds of the unsigned numbers 0..255, and 0x00 otherwise. (R135) -/
def Obligations.ComparatorIsUnsignedAndAnswersABit : Prop :=
  ∀ p q : Byte,
    cmpEq p q = (if p.toNat = q.toNat then 0x01#8 else 0x00#8)
    ∧ cmpGt p q = (if q.toNat < p.toNat then 0x01#8 else 0x00#8)
    ∧ cmpLt p q = (if p.toNat < q.toNat then 0x01#8 else 0x00#8)

/-- Idle, Running, Halted and Failed have the codes 0, 1, 2 and 3; InvalidRegisterIndex,
UnknownOpcode, ProgramTooLarge, AdapterCancelled and AddressOutOfRange the codes 1 to 5, and the
kind code is 0 when the status is not Failed. The codes are the spec's own decision D6.
(10_state.md R45, 92_eei_decisions.md D6) -/
def Obligations.StatusAndKindCodes : Prop :=
  Status.code .idle = 0 ∧ Status.code .running = 1 ∧ Status.code .halted = 2
  ∧ (∀ k, Status.code (.failed k) = 3)
  ∧ Status.kindCode (.failed .invalidRegisterIndex) = 1
  ∧ Status.kindCode (.failed .unknownOpcode) = 2
  ∧ Status.kindCode (.failed .programTooLarge) = 3
  ∧ Status.kindCode (.failed .adapterCancelled) = 4
  ∧ Status.kindCode (.failed .addressOutOfRange) = 5
  ∧ Status.kindCode .idle = 0 ∧ Status.kindCode .running = 0 ∧ Status.kindCode .halted = 0
end

