-- ==== Sys2Proof/Laws/Decode.lean ====
section
/-! SUPPORT. The laws of the decoder's parts: registers and their bytes, addresses and their bytes,
opcodes and their codes, each fetch of an operand and each format. -/

namespace Sys2Proof

/-! Registers -/

@[simp] theorem regOf_byte (r : Reg) : regOf r.byte = some r := by cases r <;> rfl

theorem Reg.byte_toNat_le (r : Reg) : r.byte.toNat ≤ 3 := by cases r <;> decide

theorem Reg.byte_injective {r q : Reg} (h : r.byte = q.byte) : r = q := by
  have := congrArg regOf h
  simpa using this

theorem regOf_eq_none_iff (b : Byte) : regOf b = none ↔ 3 < b.toNat := by
  unfold regOf
  constructor
  · intro h
    split at h <;> simp_all
    omega
  · intro h
    split <;> simp_all

theorem regOf_eq_some_iff (b : Byte) (r : Reg) : regOf b = some r ↔ b = r.byte := by
  constructor
  · intro h
    apply BitVec.eq_of_toNat_eq
    unfold regOf at h
    split at h <;> simp_all <;> subst h <;> rfl
  · rintro rfl
    simp

/-- A register-index byte in 0..3 names a register (R79). -/
theorem exists_reg_of_le {b : Byte} (h : b.toNat ≤ 3) : ∃ r : Reg, b = r.byte := by
  cases hr : regOf b with
  | none => exact absurd ((regOf_eq_none_iff b).mp hr) (by omega)
  | some r => exact ⟨r, (regOf_eq_some_iff b r).mp hr⟩

/-! Addresses -/

theorem joinAddr_toNat (hi lo : Byte) : (joinAddr hi lo).toNat = hi.toNat * 256 + lo.toNat := by
  have := hi.isLt
  have := lo.isLt
  simp only [joinAddr, BitVec.toNat_ofNat]
  omega

@[simp] theorem addrHi_joinAddr (hi lo : Byte) : addrHi (joinAddr hi lo) = hi := by
  apply BitVec.eq_of_toNat_eq
  have := hi.isLt
  have := lo.isLt
  simp only [addrHi, joinAddr_toNat, BitVec.toNat_ofNat]
  omega

@[simp] theorem addrLo_joinAddr (hi lo : Byte) : addrLo (joinAddr hi lo) = lo := by
  apply BitVec.eq_of_toNat_eq
  have := hi.isLt
  have := lo.isLt
  simp only [addrLo, joinAddr_toNat, BitVec.toNat_ofNat]
  omega

@[simp] theorem joinAddr_parts (A : Addr) : joinAddr (addrHi A) (addrLo A) = A := by
  apply BitVec.eq_of_toNat_eq
  have := A.isLt
  simp only [joinAddr_toNat, addrHi, addrLo, BitVec.toNat_ofNat]
  omega

/-! Opcodes -/

@[simp] theorem opcodeOf_code (o : Opcode) : opcodeOf o.code = some o := by cases o <;> rfl

theorem opcodeOf_eq_some_iff (b : Byte) (o : Opcode) : opcodeOf b = some o ↔ b = o.code := by
  constructor
  · intro h
    have := List.find?_some h
    exact (by simpa using this : o.code = b).symm
  · rintro rfl
    simp

theorem opcodeOf_eq_none_iff (b : Byte) : opcodeOf b = none ↔ ∀ o : Opcode, b ≠ o.code := by
  constructor
  · rintro h o rfl
    simp at h
  · intro h
    cases ho : opcodeOf b with
    | none => rfl
    | some o => exact absurd ((opcodeOf_eq_some_iff b o).mp ho) (h o)

/-! Fetches -/

@[simp] theorem Fetched.andThen_ok {α β : Type} (v : α) (bs : List Byte)
    (k : α → List Byte → Fetched β) :
    Fetched.andThen (.ok (v, bs)) k = k v bs := rfl

@[simp] theorem Fetched.andThen_error {α β : Type} (e : DecodeError)
    (k : α → List Byte → Fetched β) :
    Fetched.andThen (.error e) k = .error e := rfl

/-- Fetching goes through when both parts do, and not otherwise. -/
theorem Fetched.andThen_eq_ok {α β : Type} {x : Fetched α} {k : α → List Byte → Fetched β}
    {r : β × List Byte} :
    x.andThen k = .ok r ↔ ∃ v bs, x = .ok (v, bs) ∧ k v bs = .ok r := by
  cases x with
  | error e => simp
  | ok p => obtain ⟨v, bs⟩ := p; simp

@[simp] theorem fetchReg_nil : fetchReg [] = .error .outOfBytes := rfl
@[simp] theorem fetchImm_nil : fetchImm [] = .error .outOfBytes := rfl
@[simp] theorem fetchAddr_nil : fetchAddr [] = .error .outOfBytes := rfl
@[simp] theorem fetchAddr_one (b : Byte) : fetchAddr [b] = .error .outOfBytes := rfl

@[simp] theorem fetchReg_byte (r : Reg) (bs : List Byte) : fetchReg (r.byte :: bs) = .ok (r, bs) := by
  simp [fetchReg]

theorem fetchReg_invalid {b : Byte} (h : 3 < b.toNat) (bs : List Byte) :
    fetchReg (b :: bs) = .error .invalidRegisterIndex := by
  simp [fetchReg, (regOf_eq_none_iff b).mpr h]

@[simp] theorem fetchImm_cons (b : Byte) (bs : List Byte) : fetchImm (b :: bs) = .ok (b, bs) := rfl

@[simp] theorem fetchAddr_cons (hi lo : Byte) (bs : List Byte) :
    fetchAddr (hi :: lo :: bs) = .ok (joinAddr hi lo, bs) := rfl

theorem fetchReg_eq_ok {bs rest : List Byte} {r : Reg} :
    fetchReg bs = .ok (r, rest) ↔ bs = r.byte :: rest := by
  constructor
  · intro h
    cases bs with
    | nil => simp at h
    | cons b bs =>
      cases hr : regOf b with
      | none => simp [fetchReg, hr] at h
      | some q =>
        simp only [fetchReg, hr, Except.ok.injEq, Prod.mk.injEq] at h
        rw [(regOf_eq_some_iff b q).mp hr, h.1, h.2]
  · rintro rfl
    simp

theorem fetchImm_eq_ok {bs rest : List Byte} {v : Byte} :
    fetchImm bs = .ok (v, rest) ↔ bs = v :: rest := by
  cases bs with
  | nil => simp
  | cons b bs => simp

theorem fetchAddr_eq_ok {bs rest : List Byte} {A : Addr} :
    fetchAddr bs = .ok (A, rest) ↔ bs = addrHi A :: addrLo A :: rest := by
  constructor
  · intro h
    match bs with
    | [] => simp at h
    | [_] => simp at h
    | hi :: lo :: bs =>
      simp only [fetchAddr_cons, Except.ok.injEq, Prod.mk.injEq] at h
      obtain ⟨rfl, rfl⟩ := h
      simp
  · rintro rfl
    simp

/-! Formats: what each one reads, and that it reads nothing else -/

theorem fetchOneReg_eq_ok {mk : Reg → Instr} {bs rest : List Byte} {i : Instr} :
    fetchOneReg mk bs = .ok (i, rest) ↔ ∃ r, i = mk r ∧ bs = r.byte :: rest := by
  simp only [fetchOneReg, Fetched.andThen_eq_ok, fetchReg_eq_ok, Except.ok.injEq, Prod.mk.injEq]
  constructor
  · rintro ⟨r, _, rfl, rfl, rfl⟩
    exact ⟨r, rfl, rfl⟩
  · rintro ⟨r, rfl, rfl⟩
    exact ⟨r, _, rfl, rfl, rfl⟩

theorem fetchRegImm_eq_ok {mk : Reg → Byte → Instr} {bs rest : List Byte} {i : Instr} :
    fetchRegImm mk bs = .ok (i, rest) ↔ ∃ d v, i = mk d v ∧ bs = d.byte :: v :: rest := by
  simp only [fetchRegImm, Fetched.andThen_eq_ok, fetchReg_eq_ok, fetchImm_eq_ok, Except.ok.injEq,
    Prod.mk.injEq]
  constructor
  · rintro ⟨d, _, rfl, v, _, rfl, rfl, rfl⟩
    exact ⟨d, v, rfl, rfl⟩
  · rintro ⟨d, v, rfl, rfl⟩
    exact ⟨d, _, rfl, v, _, rfl, rfl, rfl⟩

theorem fetchTwoRegs_eq_ok {mk : Reg → Reg → Instr} {bs rest : List Byte} {i : Instr} :
    fetchTwoRegs mk bs = .ok (i, rest) ↔ ∃ d s, i = mk d s ∧ bs = d.byte :: s.byte :: rest := by
  simp only [fetchTwoRegs, Fetched.andThen_eq_ok, fetchReg_eq_ok, Except.ok.injEq, Prod.mk.injEq]
  constructor
  · rintro ⟨d, _, rfl, s, _, rfl, rfl, rfl⟩
    exact ⟨d, s, rfl, rfl⟩
  · rintro ⟨d, s, rfl, rfl⟩
    exact ⟨d, _, rfl, s, _, rfl, rfl, rfl⟩

theorem fetchRegAddr_eq_ok {mk : Reg → Addr → Instr} {bs rest : List Byte} {i : Instr} :
    fetchRegAddr mk bs = .ok (i, rest) ↔
      ∃ r A, i = mk r A ∧ bs = r.byte :: addrHi A :: addrLo A :: rest := by
  simp only [fetchRegAddr, Fetched.andThen_eq_ok, fetchReg_eq_ok, fetchAddr_eq_ok, Except.ok.injEq,
    Prod.mk.injEq]
  constructor
  · rintro ⟨r, _, rfl, A, _, rfl, rfl, rfl⟩
    exact ⟨r, A, rfl, rfl⟩
  · rintro ⟨r, A, rfl, rfl⟩
    exact ⟨r, _, rfl, A, _, rfl, rfl, rfl⟩

theorem fetchAddrReg_eq_ok {mk : Addr → Reg → Instr} {bs rest : List Byte} {i : Instr} :
    fetchAddrReg mk bs = .ok (i, rest) ↔
      ∃ A s, i = mk A s ∧ bs = addrHi A :: addrLo A :: s.byte :: rest := by
  simp only [fetchAddrReg, Fetched.andThen_eq_ok, fetchReg_eq_ok, fetchAddr_eq_ok, Except.ok.injEq,
    Prod.mk.injEq]
  constructor
  · rintro ⟨A, _, rfl, s, _, rfl, rfl, rfl⟩
    exact ⟨A, s, rfl, rfl⟩
  · rintro ⟨A, s, rfl, rfl⟩
    exact ⟨A, _, rfl, s, _, rfl, rfl, rfl⟩

theorem fetchThreeRegs_eq_ok {mk : Reg → Reg → Reg → Instr} {bs rest : List Byte} {i : Instr} :
    fetchThreeRegs mk bs = .ok (i, rest) ↔
      ∃ a b d, i = mk a b d ∧ bs = a.byte :: b.byte :: d.byte :: rest := by
  simp only [fetchThreeRegs, Fetched.andThen_eq_ok, fetchReg_eq_ok, Except.ok.injEq, Prod.mk.injEq]
  constructor
  · rintro ⟨a, _, rfl, b, _, rfl, d, _, rfl, rfl, rfl⟩
    exact ⟨a, b, d, rfl, rfl⟩
  · rintro ⟨a, b, d, rfl, rfl⟩
    exact ⟨a, _, rfl, b, _, rfl, d, _, rfl, rfl, rfl⟩

theorem fetchRegImmReg_eq_ok {mk : Reg → Byte → Reg → Instr} {bs rest : List Byte} {i : Instr} :
    fetchRegImmReg mk bs = .ok (i, rest) ↔
      ∃ a v d, i = mk a v d ∧ bs = a.byte :: v :: d.byte :: rest := by
  simp only [fetchRegImmReg, Fetched.andThen_eq_ok, fetchReg_eq_ok, fetchImm_eq_ok,
    Except.ok.injEq, Prod.mk.injEq]
  constructor
  · rintro ⟨a, _, rfl, v, _, rfl, d, _, rfl, rfl, rfl⟩
    exact ⟨a, v, d, rfl, rfl⟩
  · rintro ⟨a, v, d, rfl, rfl⟩
    exact ⟨a, _, rfl, v, _, rfl, d, _, rfl, rfl, rfl⟩

/-! The decoder by opcode -/

@[simp] theorem decode_code (o : Opcode) (bs : List Byte) :
    decode (o.code :: bs) = decodeOperands o bs := by simp [decode]

theorem decode_unknown {b : Byte} (h : opcodeOf b = none) (bs : List Byte) :
    decode (b :: bs) = .error .unknownOpcode := by simp [decode, h]

/-- The operand count of an instruction is its length less one (R76). -/
@[simp] theorem Instr.operandBytes_length (i : Instr) : i.operandBytes.length + 1 = i.length := by
  cases i <;> rfl

@[simp] theorem encode_length (i : Instr) : (encode i).length = i.length :=
  Instr.operandBytes_length i

theorem Instr.length_le (i : Instr) : 1 ≤ i.length ∧ i.length ≤ 4 := by
  cases i <;> simp [Instr.length, Instr.opcode, Opcode.length]

end Sys2Proof
end

