-- ==== Sys2Proof/Laws/Memory.lean ====
section
/-! SUPPORT. The laws of the memory operations: reads after writes, and the canonical form, which every
operation keeps and in which equal memories are equal data. -/

namespace Sys2Proof.Machine

@[simp] theorem Memory.get_nil (a : Nat) : Memory.get [] a = 0x00#8 := rfl

/-! Reads after writes; they hold of any list of cells -/

theorem Memory.get_erase_same (m : Memory) (a : Nat) : (Memory.erase m a).get a = 0x00#8 := by
  induction m with
  | nil => rfl
  | cons c m ih =>
    unfold Memory.erase
    split
    · exact ih
    · simp [Memory.get, *]

theorem Memory.get_erase_other (m : Memory) {a b : Nat} (h : b ≠ a) :
    (Memory.erase m a).get b = Memory.get m b := by
  induction m with
  | nil => rfl
  | cons c m ih =>
    unfold Memory.erase
    split
    · rename_i hc
      have : c.1 ≠ b := fun e => h (e ▸ hc)
      simp [Memory.get, this, ih]
    · simp [Memory.get, ih]

theorem Memory.get_insert_same (m : Memory) (a : Nat) (v : Byte)
    (h : Memory.erase m a = m) : (Memory.insert m a v).get a = v := by
  induction m with
  | nil => simp [Memory.insert, Memory.get]
  | cons c m ih =>
    unfold Memory.erase at h
    split at h
    · have : (Memory.erase m a).length ≤ m.length := by
        clear ih h
        induction m with
        | nil => simp [Memory.erase]
        | cons d m ih => unfold Memory.erase; split <;> simp <;> omega
      have := congrArg List.length h
      simp at this
      omega
    · unfold Memory.insert
      split
      · simp [Memory.get]
      · simp only [List.cons.injEq, true_and] at h
        simp [Memory.get, *]

theorem Memory.erase_erase (m : Memory) (a : Nat) :
    Memory.erase (Memory.erase m a) a = Memory.erase m a := by
  induction m with
  | nil => rfl
  | cons c m ih =>
    by_cases hc : c.1 = a <;> simp [Memory.erase, hc, ih]

theorem Memory.get_insert_other (m : Memory) {a b : Nat} (v : Byte) (h : b ≠ a) :
    (Memory.insert m a v).get b = Memory.get m b := by
  induction m with
  | nil => simp [Memory.insert, Memory.get, Ne.symm h, Memory.unlisted]
  | cons c m ih =>
    unfold Memory.insert
    split
    · simp [Memory.get, Ne.symm h]
    · simp [Memory.get, ih]

/-- A written cell reads as written. -/
@[simp] theorem Memory.get_set_same (m : Memory) (a : Nat) (v : Byte) : (m.set a v).get a = v := by
  unfold Memory.set
  split
  · rename_i hv
    rw [Memory.get_erase_same, hv]
    rfl
  · exact Memory.get_insert_same _ _ _ (Memory.erase_erase m a)

/-- A write leaves every other cell alone. -/
theorem Memory.get_set_other (m : Memory) {a b : Nat} (v : Byte) (h : b ≠ a) :
    (m.set a v).get b = m.get b := by
  unfold Memory.set
  split
  · exact Memory.get_erase_other m h
  · rw [Memory.get_insert_other _ _ h, Memory.get_erase_other m h]

/-- Cells outside the written range are left alone. -/
theorem Memory.get_setAll_outside (bs : List Byte) : ∀ (m : Memory) (a b : Nat),
    b < a ∨ a + bs.length ≤ b → (m.setAll a bs).get b = m.get b := by
  induction bs with
  | nil => intros; rfl
  | cons v bs ih =>
    intro m a b h
    simp only [List.length_cons] at h
    unfold Memory.setAll
    rw [ih _ _ _ (by omega), Memory.get_set_other _ _ (by omega)]

/-- The written cells read as written. -/
theorem Memory.get_setAll_inside (bs : List Byte) : ∀ (m : Memory) (a k : Nat) (h : k < bs.length),
    (m.setAll a bs).get (a + k) = bs[k] := by
  induction bs with
  | nil => intro _ _ _ h; simp at h
  | cons v bs ih =>
    intro m a k h
    unfold Memory.setAll
    cases k with
    | zero =>
      rw [Memory.get_setAll_outside _ _ _ _ (by omega)]
      simp
    | succ k =>
      have := ih (m.set a v) (a + 1) k (by simpa using h)
      rw [show a + (k + 1) = a + 1 + k by omega, this]
      simp

/-! The canonical form -/

theorem Memory.wfFrom_cons {lo : Nat} {c : Host.Cell} {m : Memory} :
    Memory.wfFrom lo (c :: m) = true ↔
      lo ≤ c.1 ∧ c.1 < Config.memSize ∧ c.2 ≠ 0x00#8 ∧ Memory.wfFrom (c.1 + 1) m = true := by
  rw [show (0x00#8 : Byte) = Memory.unlisted from rfl, Memory.wfFrom]
  simp only [Bool.and_eq_true, decide_eq_true_eq, and_assoc]

theorem Memory.wfFrom_mono {lo lo' : Nat} (hlo : lo' ≤ lo) {m : Memory}
    (h : Memory.wfFrom lo m = true) : Memory.wfFrom lo' m = true := by
  cases m with
  | nil => rfl
  | cons c m =>
    rw [Memory.wfFrom_cons] at h ⊢
    exact ⟨by omega, h.2⟩

theorem Memory.get_below {lo a : Nat} {m : Memory} (h : Memory.wfFrom lo m = true)
    (ha : a < lo) : m.get a = 0x00#8 := by
  induction m generalizing lo with
  | nil => rfl
  | cons c m ih =>
    rw [Memory.wfFrom_cons] at h
    have : c.1 ≠ a := by omega
    simp [Memory.get, this, ih h.2.2.2 (by omega)]

theorem Memory.erase_wfFrom {lo a : Nat} {m : Memory} (h : Memory.wfFrom lo m = true) :
    Memory.wfFrom lo (Memory.erase m a) = true := by
  induction m generalizing lo with
  | nil => rfl
  | cons c m ih =>
    rw [Memory.wfFrom_cons] at h
    unfold Memory.erase
    split
    · exact Memory.wfFrom_mono (by omega) (ih h.2.2.2)
    · rw [Memory.wfFrom_cons]
      exact ⟨h.1, h.2.1, h.2.2.1, ih h.2.2.2⟩

theorem Memory.insert_erase_wfFrom {lo a : Nat} {v : Byte} {m : Memory}
    (h : Memory.wfFrom lo m = true) (hlo : lo ≤ a) (ha : a < Config.memSize) (hv : v ≠ 0x00#8) :
    Memory.wfFrom lo (Memory.insert (Memory.erase m a) a v) = true := by
  induction m generalizing lo with
  | nil =>
    unfold Memory.erase Memory.insert
    exact Memory.wfFrom_cons.mpr ⟨hlo, ha, hv, rfl⟩
  | cons c m ih =>
    rw [Memory.wfFrom_cons] at h
    obtain ⟨h1, h2, h3, h4⟩ := h
    unfold Memory.erase
    split
    · exact ih (Memory.wfFrom_mono (by omega) h4) hlo
    · unfold Memory.insert
      split
      · simp only [Memory.wfFrom_cons]
        exact ⟨hlo, ha, hv, by omega, h2, h3, Memory.erase_wfFrom h4⟩
      · rw [Memory.wfFrom_cons]
        exact ⟨h1, h2, h3, ih h4 (by omega)⟩

/-- A write to a cell that exists keeps the canonical form. -/
theorem Memory.set_wf {m : Memory} (h : m.wf = true) {a : Nat} (ha : a < Config.memSize)
    (v : Byte) : (m.set a v).wf = true := by
  unfold Memory.set
  split
  · exact Memory.erase_wfFrom h
  · exact Memory.insert_erase_wfFrom h (Nat.zero_le _) ha ‹_›

theorem Memory.setAll_wf (bs : List Byte) : ∀ {m : Memory} {a : Nat}, m.wf = true →
    a + bs.length ≤ Config.memSize → (m.setAll a bs).wf = true := by
  induction bs with
  | nil => intro m a h _; exact h
  | cons v bs ih =>
    intro m a h ha
    simp only [List.length_cons] at ha
    exact ih (Memory.set_wf h (by omega) v) (by omega)

theorem Memory.eq_of_wfFrom : ∀ {lo : Nat} {m n : Memory}, Memory.wfFrom lo m = true →
    Memory.wfFrom lo n = true → (∀ a, m.get a = n.get a) → m = n := by
  intro lo m
  induction m generalizing lo with
  | nil =>
    intro n _ hn h
    cases n with
    | nil => rfl
    | cons c n =>
      rw [Memory.wfFrom_cons] at hn
      have := h c.1
      simp only [Memory.get, ite_true] at this
      exact absurd this.symm hn.2.2.1
  | cons c m ih =>
    intro n hm hn h
    have hm' := Memory.wfFrom_cons.mp hm
    cases n with
    | nil =>
      have := h c.1
      simp only [Memory.get, ite_true] at this
      exact absurd this hm'.2.2.1
    | cons d n =>
      have hn' := Memory.wfFrom_cons.mp hn
      have hcd : c.1 = d.1 := by
        rcases Nat.lt_trichotomy c.1 d.1 with hlt | heq | hgt
        · have := h c.1
          have hd : ¬ d.1 = c.1 := by omega
          simp only [Memory.get, ite_true, hd, ite_false] at this
          rw [Memory.get_below hn'.2.2.2 (by omega)] at this
          exact absurd this hm'.2.2.1
        · exact heq
        · have := h d.1
          have hc : ¬ c.1 = d.1 := by omega
          simp only [Memory.get, ite_true, hc, ite_false] at this
          rw [Memory.get_below hm'.2.2.2 (by omega)] at this
          exact absurd this.symm hn'.2.2.1
      have hval : c.2 = d.2 := by
        have := h c.1
        simpa [Memory.get, hcd] using this
      have hrest : m = n := by
        apply ih hm'.2.2.2 (by rw [hcd]; exact hn'.2.2.2)
        intro a
        by_cases ha : a = c.1
        · rw [Memory.get_below hm'.2.2.2 (by omega), Memory.get_below hn'.2.2.2 (by omega)]
        · have := h a
          have h1 : ¬ c.1 = a := by omega
          have h2 : ¬ d.1 = a := by omega
          simpa [Memory.get, h1, h2] using this
      rw [show c = d from Prod.ext hcd hval, hrest]

/-- Equal memories are equal data: two canonical memories that read the same are the same list. -/
theorem Memory.eq_of_get_eq {m n : Memory} (hm : m.wf = true) (hn : n.wf = true)
    (h : ∀ a, m.get a = n.get a) : m = n := Memory.eq_of_wfFrom hm hn h

/-- Reset's memory is canonical. -/
theorem State.reset_mem_wf : State.reset.mem.wf = true := rfl

/-! The two access primitives: everything they can do -/

theorem memRead_cases (m : Memory) (a : Addr) :
    (a.toNat < 65535 ∧ memRead m a = .ok (m.get a.toNat))
      ∨ (a.toNat = 65535 ∧ memRead m a = .error .addressOutOfRange) := by
  unfold memRead Config.memSize
  split
  · exact .inl ⟨‹_›, rfl⟩
  · exact .inr ⟨by omega, rfl⟩

theorem memWrite_cases (m : Memory) (a : Addr) (v : Byte) :
    (a.toNat < 65535 ∧ memWrite m a v = .ok (m.set a.toNat v))
      ∨ (a.toNat = 65535 ∧ memWrite m a v = .error .addressOutOfRange) := by
  unfold memWrite Config.memSize
  split
  · exact .inl ⟨‹_›, rfl⟩
  · exact .inr ⟨by omega, rfl⟩

/-- A write that succeeds keeps the canonical form. -/
theorem memWrite_wf {m m' : Memory} {a : Addr} {v : Byte} (h : memWrite m a v = .ok m')
    (hm : m.wf = true) : m'.wf = true := by
  rcases memWrite_cases m a v with ⟨ha, e⟩ | ⟨_, e⟩
  · rw [e] at h
    cases h
    exact Memory.set_wf hm ha v
  · rw [e] at h
    cases h

end Sys2Proof.Machine
end

