-- ==== Sys2Proof/Laws/State.lean ====
section
/-! SUPPORT. One lemma per field per update of the state, so that no proof unfolds a record update. -/

namespace Sys2Proof.Machine

variable (s : State)

/-! `State.writeReg` -/

@[simp] theorem State.writeReg_regs (r : Reg) (v : Byte) : (s.writeReg r v).regs = s.regs.write r v := rfl
@[simp] theorem State.writeReg_pc (r : Reg) (v : Byte) : (s.writeReg r v).pc = s.pc := rfl
@[simp] theorem State.writeReg_mem (r : Reg) (v : Byte) : (s.writeReg r v).mem = s.mem := rfl
@[simp] theorem State.writeReg_status (r : Reg) (v : Byte) : (s.writeReg r v).status = s.status := rfl
@[simp] theorem State.writeReg_calls (r : Reg) (v : Byte) : (s.writeReg r v).calls = s.calls := rfl
@[simp] theorem State.writeReg_loadResult (r : Reg) (v : Byte) : (s.writeReg r v).loadResult = s.loadResult := rfl
@[simp] theorem State.writeReg_adapter (r : Reg) (v : Byte) : (s.writeReg r v).adapter = s.adapter := rfl
@[simp] theorem State.writeReg_hostPhases (r : Reg) (v : Byte) : (s.writeReg r v).hostPhases = s.hostPhases := rfl
@[simp] theorem State.writeReg_rendered (r : Reg) (v : Byte) : (s.writeReg r v).rendered = s.rendered := rfl

/-! `State.setPc` -/

@[simp] theorem State.setPc_regs (t : Addr) : (s.setPc t).regs = s.regs := rfl
@[simp] theorem State.setPc_pc (t : Addr) : (s.setPc t).pc = t := rfl
@[simp] theorem State.setPc_mem (t : Addr) : (s.setPc t).mem = s.mem := rfl
@[simp] theorem State.setPc_status (t : Addr) : (s.setPc t).status = s.status := rfl
@[simp] theorem State.setPc_calls (t : Addr) : (s.setPc t).calls = s.calls := rfl
@[simp] theorem State.setPc_loadResult (t : Addr) : (s.setPc t).loadResult = s.loadResult := rfl
@[simp] theorem State.setPc_adapter (t : Addr) : (s.setPc t).adapter = s.adapter := rfl
@[simp] theorem State.setPc_hostPhases (t : Addr) : (s.setPc t).hostPhases = s.hostPhases := rfl
@[simp] theorem State.setPc_rendered (t : Addr) : (s.setPc t).rendered = s.rendered := rfl

/-! `State.setMem` -/

@[simp] theorem State.setMem_regs (m : Memory) : (s.setMem m).regs = s.regs := rfl
@[simp] theorem State.setMem_pc (m : Memory) : (s.setMem m).pc = s.pc := rfl
@[simp] theorem State.setMem_mem (m : Memory) : (s.setMem m).mem = m := rfl
@[simp] theorem State.setMem_status (m : Memory) : (s.setMem m).status = s.status := rfl
@[simp] theorem State.setMem_calls (m : Memory) : (s.setMem m).calls = s.calls := rfl
@[simp] theorem State.setMem_loadResult (m : Memory) : (s.setMem m).loadResult = s.loadResult := rfl
@[simp] theorem State.setMem_adapter (m : Memory) : (s.setMem m).adapter = s.adapter := rfl
@[simp] theorem State.setMem_hostPhases (m : Memory) : (s.setMem m).hostPhases = s.hostPhases := rfl
@[simp] theorem State.setMem_rendered (m : Memory) : (s.setMem m).rendered = s.rendered := rfl

/-! `State.raise` -/

@[simp] theorem State.raise_regs (k : ErrorKind) : (s.raise k).regs = s.regs := rfl
@[simp] theorem State.raise_pc (k : ErrorKind) : (s.raise k).pc = s.pcAfterError k := rfl
@[simp] theorem State.raise_mem (k : ErrorKind) : (s.raise k).mem = s.mem := rfl
@[simp] theorem State.raise_status (k : ErrorKind) : (s.raise k).status = .failed k := rfl
@[simp] theorem State.raise_calls (k : ErrorKind) : (s.raise k).calls = s.calls := rfl
@[simp] theorem State.raise_loadResult (k : ErrorKind) : (s.raise k).loadResult = s.loadResult := rfl
@[simp] theorem State.raise_adapter (k : ErrorKind) : (s.raise k).adapter = s.adapter := rfl
@[simp] theorem State.raise_hostPhases (k : ErrorKind) : (s.raise k).hostPhases = s.hostPhases := rfl
@[simp] theorem State.raise_rendered (k : ErrorKind) : (s.raise k).rendered = s.rendered := rfl

/-! `State.halt` -/

@[simp] theorem State.halt_regs : s.halt.regs = s.regs := rfl
@[simp] theorem State.halt_pc : s.halt.pc = s.pc := rfl
@[simp] theorem State.halt_mem : s.halt.mem = s.mem := rfl
@[simp] theorem State.halt_status : s.halt.status = .halted := rfl
@[simp] theorem State.halt_calls : s.halt.calls = s.calls := rfl
@[simp] theorem State.halt_loadResult : s.halt.loadResult = s.loadResult := rfl
@[simp] theorem State.halt_adapter : s.halt.adapter = s.adapter := rfl
@[simp] theorem State.halt_hostPhases : s.halt.hostPhases = s.hostPhases := rfl
@[simp] theorem State.halt_rendered : s.halt.rendered = s.rendered := rfl

/-! `State.advance` -/

@[simp] theorem State.advance_regs (i : Instr) : (s.advance i).regs = s.regs := rfl
@[simp] theorem State.advance_pc (i : Instr) : (s.advance i).pc = s.pc + BitVec.ofNat 16 i.length := rfl
@[simp] theorem State.advance_mem (i : Instr) : (s.advance i).mem = s.mem := rfl
@[simp] theorem State.advance_status (i : Instr) : (s.advance i).status = s.status := rfl
@[simp] theorem State.advance_calls (i : Instr) : (s.advance i).calls = s.calls := rfl
@[simp] theorem State.advance_loadResult (i : Instr) : (s.advance i).loadResult = s.loadResult := rfl
@[simp] theorem State.advance_adapter (i : Instr) : (s.advance i).adapter = s.adapter := rfl
@[simp] theorem State.advance_hostPhases (i : Instr) : (s.advance i).hostPhases = s.hostPhases := rfl
@[simp] theorem State.advance_rendered (i : Instr) : (s.advance i).rendered = s.rendered := rfl

/-! `State.hostPhase` -/

@[simp] theorem State.hostPhase_regs : s.hostPhase.regs = s.regs := rfl
@[simp] theorem State.hostPhase_pc : s.hostPhase.pc = s.pc := rfl
@[simp] theorem State.hostPhase_mem : s.hostPhase.mem = s.mem.set Config.inputAddr s.answer.inputByte := rfl
@[simp] theorem State.hostPhase_status : s.hostPhase.status = s.status := rfl
@[simp] theorem State.hostPhase_calls : s.hostPhase.calls = s.calls := rfl
@[simp] theorem State.hostPhase_loadResult : s.hostPhase.loadResult = s.loadResult := rfl
@[simp] theorem State.hostPhase_adapter : s.hostPhase.adapter = s.adapter.tail := rfl
@[simp] theorem State.hostPhase_hostPhases : s.hostPhase.hostPhases = s.hostPhases + 1 := rfl
@[simp] theorem State.hostPhase_rendered : s.hostPhase.rendered = some s.mem := rfl

/-! `State.placeBytes` -/

@[simp] theorem State.placeBytes_regs (bs : List Byte) : (s.placeBytes bs).regs = s.regs := rfl
@[simp] theorem State.placeBytes_pc (bs : List Byte) : (s.placeBytes bs).pc = s.placeAt := rfl
@[simp] theorem State.placeBytes_mem (bs : List Byte) : (s.placeBytes bs).mem = s.mem.setAll s.placeAt.toNat bs := rfl
@[simp] theorem State.placeBytes_status (bs : List Byte) : (s.placeBytes bs).status = .running := rfl
@[simp] theorem State.placeBytes_calls (bs : List Byte) : (s.placeBytes bs).calls = s.calls := rfl
@[simp] theorem State.placeBytes_loadResult (bs : List Byte) : (s.placeBytes bs).loadResult = s.loadResult := rfl
@[simp] theorem State.placeBytes_hostPhases (bs : List Byte) : (s.placeBytes bs).hostPhases = s.hostPhases := rfl
@[simp] theorem State.placeBytes_rendered (bs : List Byte) : (s.placeBytes bs).rendered = s.rendered := rfl

@[simp] theorem State.setPc_readReg (t : Addr) (q : Reg) :
    (s.setPc t).readReg q = s.readReg q := rfl

@[simp] theorem State.setMem_readReg (m : Memory) (q : Reg) :
    (s.setMem m).readReg q = s.readReg q := rfl

@[simp] theorem State.raise_readReg (k : ErrorKind) (q : Reg) :
    (s.raise k).readReg q = s.readReg q := rfl

@[simp] theorem State.halt_readReg (q : Reg) :
    s.halt.readReg q = s.readReg q := rfl

@[simp] theorem State.advance_readReg (i : Instr) (q : Reg) :
    (s.advance i).readReg q = s.readReg q := rfl

@[simp] theorem State.hostPhase_readReg (q : Reg) :
    s.hostPhase.readReg q = s.readReg q := rfl

@[simp] theorem State.placeBytes_readReg (bs : List Byte) (q : Reg) :
    (s.placeBytes bs).readReg q = s.readReg q := rfl

/-! The register file -/

@[simp] theorem RegFile.read_write_same (f : RegFile) (r : Reg) (v : Byte) :
    (f.write r v).read r = v := by cases r <;> rfl

theorem RegFile.read_write_other (f : RegFile) {r q : Reg} (v : Byte) (h : q ≠ r) :
    (f.write r v).read q = f.read q := by
  cases r <;> cases q <;> first | rfl | exact absurd rfl h

@[simp] theorem State.writeReg_readReg_same (r : Reg) (v : Byte) :
    (s.writeReg r v).readReg r = v := RegFile.read_write_same _ _ _

theorem State.writeReg_readReg_other {r q : Reg} (v : Byte) (h : q ≠ r) :
    (s.writeReg r v).readReg q = s.readReg q := RegFile.read_write_other _ _ h

/-- Two register files that read the same are the same. -/
theorem RegFile.ext_read {f g : RegFile} (h : ∀ r, f.read r = g.read r) : f = g := by
  cases f
  cases g
  have h0 := h .r0
  have h1 := h .r1
  have h2 := h .r2
  have h3 := h .r3
  simp only [RegFile.read] at h0 h1 h2 h3
  simp [h0, h1, h2, h3]

end Sys2Proof.Machine
end

