-- ==== Sys2Proof/Laws/Exec.lean ====
section
/-! SUPPORT. What each shared operation and each meaning can do, said once: the lemmas the proofs about
`exec` cite instead of unfolding it. -/

namespace Sys2Proof.Machine

/-! The shared operations -/

@[simp] theorem commitReg_eq (d : Reg) (v : Byte) (s : State) :
    commitReg d v s = .next (s.writeReg d v) := rfl

@[simp] theorem commitPc_eq (T : Addr) (s : State) : commitPc T s = .next (s.setPc T) := rfl

theorem commitLoad_of_lt {A : Addr} (h : A.toNat < 65535) (d : Reg) (s : State) :
    commitLoad d A s = .next (s.writeReg d (s.mem.get A.toNat)) := by
  rcases memRead_cases s.mem A with ⟨_, e⟩ | ⟨h', _⟩
  · simp [commitLoad, e]
  · omega

theorem commitLoad_of_eq {A : Addr} (h : A.toNat = 65535) (d : Reg) (s : State) :
    commitLoad d A s = .next (s.raise .addressOutOfRange) := by
  rcases memRead_cases s.mem A with ⟨h', _⟩ | ⟨_, e⟩
  · omega
  · simp [commitLoad, e]

theorem commitStore_of_lt {A : Addr} (h : A.toNat < 65535) (v : Byte) (s : State) :
    commitStore A v s = .next (s.setMem (s.mem.set A.toNat v)) := by
  rcases memWrite_cases s.mem A v with ⟨_, e⟩ | ⟨h', _⟩
  · simp [commitStore, e]
  · omega

theorem commitStore_of_eq {A : Addr} (h : A.toNat = 65535) (v : Byte) (s : State) :
    commitStore A v s = .next (s.raise .addressOutOfRange) := by
  rcases memWrite_cases s.mem A v with ⟨h', _⟩ | ⟨_, e⟩
  · omega
  · simp [commitStore, e]

/-- An address is 0xFFFF or names a cell. -/
theorem addr_lt_or_eq (A : Addr) : A.toNat < 65535 ∨ A.toNat = 65535 := by
  have := A.isLt
  omega

/-! The frames of the updates -/

theorem HostSideSame.refl (s : State) : HostSideSame s s := ⟨rfl, rfl, rfl, rfl, rfl⟩

theorem writeReg_only (s : State) (d : Reg) (v : Byte) : OnlyRegister d s (s.writeReg d v) :=
  ⟨fun _ h => State.writeReg_readReg_other s v h, fun _ => rfl, rfl, HostSideSame.refl s⟩

theorem setMem_only (s : State) (a : Nat) (v : Byte) :
    OnlyCell a s (s.setMem (s.mem.set a v)) :=
  ⟨fun _ => rfl, fun _ h => Memory.get_set_other _ _ h, rfl, HostSideSame.refl s⟩

theorem setPc_only (s : State) (T : Addr) : OnlyPc s (s.setPc T) :=
  ⟨fun _ => rfl, fun _ => rfl, rfl, HostSideSame.refl s⟩

theorem advance_only (s : State) (i : Instr) : OnlyPc s (s.advance i) :=
  ⟨fun _ => rfl, fun _ => rfl, rfl, HostSideSame.refl s⟩

theorem raise_only (s : State) (k : ErrorKind) : OnlyPcAndStatus s (s.raise k) :=
  ⟨fun _ => rfl, fun _ => rfl, HostSideSame.refl s⟩

theorem halt_only (s : State) : OnlyPcAndStatus s s.halt :=
  ⟨fun _ => rfl, fun _ => rfl, HostSideSame.refl s⟩

/-! The meanings -/

/-- The instructions without a destination register are the four that R32 names. -/
theorem destination_eq_none_iff (i : Instr) : i.destination = none ↔
    (i.opcode = .halt ∨ i.opcode = .nop ∨ i.opcode = .storeMemory ∨ i.opcode = .jumpIf) := by
  cases i <;> simp [Instr.destination, Instr.opcode]

/-- Everything a meaning can do: it answers a next state, and that state differs by the
instruction's destination register, one cell that STORE_MEMORY names, the `pc` JUMP_IF sets, the end of the run, or by nothing (R114). -/
theorem exec_cases (i : Instr) (s : State) :
    (∃ d v, exec i s = .next (s.writeReg d v) ∧ i.destination = some d)
    ∨ (∃ A src, i = .storeMemory A src ∧ A.toNat < 65535
        ∧ exec i s = .next (s.setMem (s.mem.set A.toNat (s.readReg src))))
    ∨ (∃ c T, i = .jumpIf c T ∧ s.readReg c = 0x01#8 ∧ exec i s = .next (s.setPc T))
    ∨ ((i = .nop ∨ ∃ c T, i = .jumpIf c T ∧ s.readReg c ≠ 0x01#8) ∧ exec i s = .next s)
    ∨ (i = .halt ∧ exec i s = .next s.halt)
    ∨ (((∃ d A, i = .loadMemory d A ∧ A.toNat = 65535)
          ∨ ∃ A src, i = .storeMemory A src ∧ A.toNat = 65535)
        ∧ exec i s = .next (s.raise .addressOutOfRange)) := by
  cases i with
  | halt => exact .inr (.inr (.inr (.inr (.inl ⟨rfl, rfl⟩))))
  | nop => exact .inr (.inr (.inr (.inl ⟨.inl rfl, rfl⟩)))
  | loadMemory d A =>
    rcases addr_lt_or_eq A with h | h
    · exact .inl ⟨d, _, commitLoad_of_lt h d s, rfl⟩
    · exact .inr (.inr (.inr (.inr (.inr ⟨.inl ⟨d, A, rfl, h⟩, commitLoad_of_eq h d s⟩))))
  | storeMemory A src =>
    rcases addr_lt_or_eq A with h | h
    · exact .inr (.inl ⟨A, src, rfl, h, commitStore_of_lt h _ s⟩)
    · exact .inr (.inr (.inr (.inr (.inr ⟨.inr ⟨A, src, rfl, h⟩, commitStore_of_eq h _ s⟩))))
  | jumpIf c T =>
    by_cases h : s.readReg c = 0x01#8
    · exact .inr (.inr (.inl ⟨c, T, rfl, h, by simp [exec, execJumpIf, jumpTaken, h]⟩))
    · exact .inr (.inr (.inr (.inl ⟨.inr ⟨c, T, rfl, h⟩, by simp [exec, execJumpIf, jumpTaken, h]⟩)))
  | _ => exact .inl ⟨_, _, rfl, rfl⟩

/-! The ALU and the comparator -/

theorem narrow_toNat (z : Int) : ((narrow z).toNat : Int) = z % 256 := by
  have : (0 : Int) ≤ z % 256 := Int.emod_nonneg _ (by decide)
  simp [narrow, this]

theorem boolByte_decide (p : Prop) [Decidable p] :
    boolByte (decide p) = if p then 0x01#8 else 0x00#8 := by
  by_cases h : p <;> simp [boolByte, h]

theorem boolByte_eq_one_iff (c : Bool) : boolByte c = 0x01#8 ↔ c = true := by
  cases c <;> decide

end Sys2Proof.Machine
end

