-- ==== Sys2Proof/Laws/WellFormed.lean ====
section
/-! SUPPORT. The laws of instruction words: masking a word is masking its bytes, so the match, mask and
reg_mask of the opcode table are conditions on single bytes. -/

namespace Sys2Proof

/-- A bitwise AND splits at any bit. -/
theorem land_split {k b c : Nat} (x m : Nat) (hb : b < 2 ^ k) (hc : c < 2 ^ k) :
    (x * 2 ^ k + b) &&& (m * 2 ^ k + c) = (x &&& m) * 2 ^ k + (b &&& c) := by
  apply Nat.eq_of_testBit_eq
  intro j
  have h : b &&& c < 2 ^ k := Nat.lt_of_le_of_lt Nat.and_le_left hb
  rw [Nat.testBit_and, Nat.mul_comm x, Nat.mul_comm m, Nat.mul_comm (x &&& m),
    Nat.testBit_two_pow_mul_add _ hb, Nat.testBit_two_pow_mul_add _ hc,
    Nat.testBit_two_pow_mul_add _ h]
  split <;> simp

theorem wordOf_lt (bs : List Byte) : wordOf bs < 2 ^ (8 * bs.length) := by
  induction bs with
  | nil => simp [wordOf]
  | cons b bs ih =>
    have hb := b.isLt
    have h256 : (256 : Nat) ^ bs.length = 2 ^ (8 * bs.length) := by
      rw [show (256 : Nat) = 2 ^ 8 from rfl, ← Nat.pow_mul]
    simp only [wordOf, List.length_cons, h256, Nat.mul_add, Nat.pow_add, Nat.mul_one]
    have : b.toNat * 2 ^ (8 * bs.length) ≤ 255 * 2 ^ (8 * bs.length) :=
      Nat.mul_le_mul_right _ (by omega)
    omega

/-- Masking a word is masking its bytes. -/
theorem wordOf_land : ∀ {bs ms : List Byte}, bs.length = ms.length →
    wordOf bs &&& wordOf ms = wordOf (List.zipWith (· &&& ·) bs ms) := by
  intro bs
  induction bs with
  | nil => intro ms _; simp [wordOf]
  | cons b bs ih =>
    intro ms h
    cases ms with
    | nil => simp at h
    | cons m ms =>
      simp only [List.length_cons, Nat.add_right_cancel_iff] at h
      have h256 : ∀ n : Nat, (256 : Nat) ^ n = 2 ^ (8 * n) := fun n => by
        rw [show (256 : Nat) = 2 ^ 8 from rfl, ← Nat.pow_mul]
      simp only [wordOf, List.zipWith_cons_cons, List.length_zipWith, ← h, Nat.min_self, h256]
      rw [land_split _ _ (wordOf_lt bs) (h ▸ wordOf_lt ms), ih h, BitVec.toNat_and]

/-- A word of a given length has one list of bytes. -/
theorem wordOf_injective : ∀ {bs cs : List Byte}, bs.length = cs.length →
    wordOf bs = wordOf cs → bs = cs := by
  intro bs
  induction bs with
  | nil =>
    intro cs h _
    exact (List.eq_nil_of_length_eq_zero h.symm).symm
  | cons b bs ih =>
    intro cs h hw
    cases cs with
    | nil => simp at h
    | cons c cs =>
      simp only [List.length_cons, Nat.add_right_cancel_iff] at h
      have h256 : (256 : Nat) ^ bs.length = 2 ^ (8 * bs.length) := by
        rw [show (256 : Nat) = 2 ^ 8 from rfl, ← Nat.pow_mul]
      have h1 := wordOf_lt bs
      have h2 := wordOf_lt cs
      simp only [wordOf, ← h, h256] at hw
      rw [← h] at h2
      have hpos : 0 < 2 ^ (8 * bs.length) := by positivity
      have hd := congrArg (· / 2 ^ (8 * bs.length)) hw
      have hm := congrArg (· % 2 ^ (8 * bs.length)) hw
      simp only [Nat.mul_add_mod_self_right, Nat.mod_eq_of_lt h1, Nat.mod_eq_of_lt h2] at hm
      simp only [Nat.add_comm (_ * _), Nat.add_mul_div_right _ _ hpos, Nat.div_eq_of_lt h1,
        Nat.div_eq_of_lt h2, Nat.zero_add] at hd
      rw [BitVec.eq_of_toNat_eq hd, ih h hm]

/-- A row accepts bytes when they match bytewise under the bytes of its masks. -/
theorem TableRow.accepts_iff {row : TableRow} {bs match' mask' reg' zero' : List Byte}
    (hl : bs.length = row.length) (h1 : match'.length = row.length) (h2 : mask'.length = row.length)
    (h3 : reg'.length = row.length) (h4 : zero'.length = row.length)
    (e1 : wordOf match' = row.matchBits) (e2 : wordOf mask' = row.mask)
    (e3 : wordOf reg' = row.regMask) (e4 : wordOf zero' = 0) :
    row.accepts bs = true ↔
      List.zipWith (· &&& ·) bs mask' = match' ∧ List.zipWith (· &&& ·) bs reg' = zero' := by
  simp only [TableRow.accepts, hl, beq_self_eq_true, Bool.true_and, Bool.and_eq_true, beq_iff_eq]
  rw [← e1, ← e2, ← e3, ← e4, wordOf_land (by omega), wordOf_land (by omega)]
  constructor
  · rintro ⟨a, b⟩
    exact ⟨wordOf_injective (by simp; omega) a, wordOf_injective (by simp; omega) b⟩
  · rintro ⟨a, b⟩
    exact ⟨congrArg wordOf a, congrArg wordOf b⟩

/-- The reg_mask of one byte accepts exactly 0..3 (R79, R93). -/
theorem regMask_byte_iff (b : Byte) : b &&& 0xFC#8 = 0x00#8 ↔ b.toNat ≤ 3 := by
  revert b
  decide

@[simp] theorem Reg.byte_regMask (r : Reg) : r.byte &&& 0xFC#8 = 0x00#8 := by cases r <;> rfl

end Sys2Proof
end

