-- ==== Sys2Proof/Laws/PerInstr.lean ====
section
/-! SUPPORT. The family of statements made per instruction: EncodingLegal, the encoding of the
instruction is one legal word of the opcode table (30_encoding.md R88, R93). -/

namespace Sys2Proof.Laws

/-- The encoding is accepted by a row of the opcode table (R93). -/
def EncodingLegal.Statement (i : Instr) : Prop := legalBytes (encode i) = true

/-- One accepting row makes bytes legal. -/
theorem legalBytes_of_accepts {row : TableRow} {bs : List Byte} (hr : row ∈ opcodeTable)
    (h : row.accepts bs = true) : legalBytes bs = true :=
  List.any_eq_true.mpr ⟨row, hr, h⟩

theorem EncodingLegal.halt : Statement (.halt) :=
  legalBytes_of_accepts (row := ⟨.halt, 1, 0x00, 0xFF, 0x00⟩) (by decide) <|
    (TableRow.accepts_iff (match' := [0x00#8]) (mask' := [0xFF#8])
      (reg' := [0x00#8]) (zero' := List.replicate 1 0x00#8)
      rfl rfl rfl rfl rfl rfl rfl rfl rfl).mpr (by simp [encode, Instr.opcode, Instr.operandBytes, Opcode.code])

theorem EncodingLegal.nop : Statement (.nop) :=
  legalBytes_of_accepts (row := ⟨.nop, 1, 0xFF, 0xFF, 0x00⟩) (by decide) <|
    (TableRow.accepts_iff (match' := [0xFF#8]) (mask' := [0xFF#8])
      (reg' := [0x00#8]) (zero' := List.replicate 1 0x00#8)
      rfl rfl rfl rfl rfl rfl rfl rfl rfl).mpr (by simp [encode, Instr.opcode, Instr.operandBytes, Opcode.code])

theorem EncodingLegal.loadImmediate (d : Reg) (v : Byte) : Statement (.loadImmediate d v) :=
  legalBytes_of_accepts (row := ⟨.loadImmediate, 3, 0x100000, 0xFF0000, 0x00FC00⟩) (by decide) <|
    (TableRow.accepts_iff (match' := [0x10#8, 0x00#8, 0x00#8]) (mask' := [0xFF#8, 0x00#8, 0x00#8])
      (reg' := [0x00#8, 0xFC#8, 0x00#8]) (zero' := List.replicate 3 0x00#8)
      rfl rfl rfl rfl rfl rfl rfl rfl rfl).mpr (by simp [encode, Instr.opcode, Instr.operandBytes, Opcode.code])

theorem EncodingLegal.loadRegister (d s : Reg) : Statement (.loadRegister d s) :=
  legalBytes_of_accepts (row := ⟨.loadRegister, 3, 0x110000, 0xFF0000, 0x00FCFC⟩) (by decide) <|
    (TableRow.accepts_iff (match' := [0x11#8, 0x00#8, 0x00#8]) (mask' := [0xFF#8, 0x00#8, 0x00#8])
      (reg' := [0x00#8, 0xFC#8, 0xFC#8]) (zero' := List.replicate 3 0x00#8)
      rfl rfl rfl rfl rfl rfl rfl rfl rfl).mpr (by simp [encode, Instr.opcode, Instr.operandBytes, Opcode.code])

theorem EncodingLegal.loadMemory (d : Reg) (A : Addr) : Statement (.loadMemory d A) :=
  legalBytes_of_accepts (row := ⟨.loadMemory, 4, 0x12000000, 0xFF000000, 0x00FC0000⟩) (by decide) <|
    (TableRow.accepts_iff (match' := [0x12#8, 0x00#8, 0x00#8, 0x00#8]) (mask' := [0xFF#8, 0x00#8, 0x00#8, 0x00#8])
      (reg' := [0x00#8, 0xFC#8, 0x00#8, 0x00#8]) (zero' := List.replicate 4 0x00#8)
      rfl rfl rfl rfl rfl rfl rfl rfl rfl).mpr (by simp [encode, Instr.opcode, Instr.operandBytes, Opcode.code])

theorem EncodingLegal.storeMemory (A : Addr) (s : Reg) : Statement (.storeMemory A s) :=
  legalBytes_of_accepts (row := ⟨.storeMemory, 4, 0x20000000, 0xFF000000, 0x000000FC⟩) (by decide) <|
    (TableRow.accepts_iff (match' := [0x20#8, 0x00#8, 0x00#8, 0x00#8]) (mask' := [0xFF#8, 0x00#8, 0x00#8, 0x00#8])
      (reg' := [0x00#8, 0x00#8, 0x00#8, 0xFC#8]) (zero' := List.replicate 4 0x00#8)
      rfl rfl rfl rfl rfl rfl rfl rfl rfl).mpr (by simp [encode, Instr.opcode, Instr.operandBytes, Opcode.code])

theorem EncodingLegal.cmpEqReg (a b d : Reg) : Statement (.cmpEqReg a b d) :=
  legalBytes_of_accepts (row := ⟨.cmpEqReg, 4, 0x30000000, 0xFF000000, 0x00FCFCFC⟩) (by decide) <|
    (TableRow.accepts_iff (match' := [0x30#8, 0x00#8, 0x00#8, 0x00#8]) (mask' := [0xFF#8, 0x00#8, 0x00#8, 0x00#8])
      (reg' := [0x00#8, 0xFC#8, 0xFC#8, 0xFC#8]) (zero' := List.replicate 4 0x00#8)
      rfl rfl rfl rfl rfl rfl rfl rfl rfl).mpr (by simp [encode, Instr.opcode, Instr.operandBytes, Opcode.code])

theorem EncodingLegal.cmpEqImm (a : Reg) (v : Byte) (d : Reg) : Statement (.cmpEqImm a v d) :=
  legalBytes_of_accepts (row := ⟨.cmpEqImm, 4, 0x31000000, 0xFF000000, 0x00FC00FC⟩) (by decide) <|
    (TableRow.accepts_iff (match' := [0x31#8, 0x00#8, 0x00#8, 0x00#8]) (mask' := [0xFF#8, 0x00#8, 0x00#8, 0x00#8])
      (reg' := [0x00#8, 0xFC#8, 0x00#8, 0xFC#8]) (zero' := List.replicate 4 0x00#8)
      rfl rfl rfl rfl rfl rfl rfl rfl rfl).mpr (by simp [encode, Instr.opcode, Instr.operandBytes, Opcode.code])

theorem EncodingLegal.cmpGtReg (a b d : Reg) : Statement (.cmpGtReg a b d) :=
  legalBytes_of_accepts (row := ⟨.cmpGtReg, 4, 0x32000000, 0xFF000000, 0x00FCFCFC⟩) (by decide) <|
    (TableRow.accepts_iff (match' := [0x32#8, 0x00#8, 0x00#8, 0x00#8]) (mask' := [0xFF#8, 0x00#8, 0x00#8, 0x00#8])
      (reg' := [0x00#8, 0xFC#8, 0xFC#8, 0xFC#8]) (zero' := List.replicate 4 0x00#8)
      rfl rfl rfl rfl rfl rfl rfl rfl rfl).mpr (by simp [encode, Instr.opcode, Instr.operandBytes, Opcode.code])

theorem EncodingLegal.cmpLtReg (a b d : Reg) : Statement (.cmpLtReg a b d) :=
  legalBytes_of_accepts (row := ⟨.cmpLtReg, 4, 0x33000000, 0xFF000000, 0x00FCFCFC⟩) (by decide) <|
    (TableRow.accepts_iff (match' := [0x33#8, 0x00#8, 0x00#8, 0x00#8]) (mask' := [0xFF#8, 0x00#8, 0x00#8, 0x00#8])
      (reg' := [0x00#8, 0xFC#8, 0xFC#8, 0xFC#8]) (zero' := List.replicate 4 0x00#8)
      rfl rfl rfl rfl rfl rfl rfl rfl rfl).mpr (by simp [encode, Instr.opcode, Instr.operandBytes, Opcode.code])

theorem EncodingLegal.jumpIf (c : Reg) (T : Addr) : Statement (.jumpIf c T) :=
  legalBytes_of_accepts (row := ⟨.jumpIf, 4, 0x40000000, 0xFF000000, 0x00FC0000⟩) (by decide) <|
    (TableRow.accepts_iff (match' := [0x40#8, 0x00#8, 0x00#8, 0x00#8]) (mask' := [0xFF#8, 0x00#8, 0x00#8, 0x00#8])
      (reg' := [0x00#8, 0xFC#8, 0x00#8, 0x00#8]) (zero' := List.replicate 4 0x00#8)
      rfl rfl rfl rfl rfl rfl rfl rfl rfl).mpr (by simp [encode, Instr.opcode, Instr.operandBytes, Opcode.code])

theorem EncodingLegal.inc (r : Reg) : Statement (.inc r) :=
  legalBytes_of_accepts (row := ⟨.inc, 2, 0x5000, 0xFF00, 0x00FC⟩) (by decide) <|
    (TableRow.accepts_iff (match' := [0x50#8, 0x00#8]) (mask' := [0xFF#8, 0x00#8])
      (reg' := [0x00#8, 0xFC#8]) (zero' := List.replicate 2 0x00#8)
      rfl rfl rfl rfl rfl rfl rfl rfl rfl).mpr (by simp [encode, Instr.opcode, Instr.operandBytes, Opcode.code])

theorem EncodingLegal.dec (r : Reg) : Statement (.dec r) :=
  legalBytes_of_accepts (row := ⟨.dec, 2, 0x5100, 0xFF00, 0x00FC⟩) (by decide) <|
    (TableRow.accepts_iff (match' := [0x51#8, 0x00#8]) (mask' := [0xFF#8, 0x00#8])
      (reg' := [0x00#8, 0xFC#8]) (zero' := List.replicate 2 0x00#8)
      rfl rfl rfl rfl rfl rfl rfl rfl rfl).mpr (by simp [encode, Instr.opcode, Instr.operandBytes, Opcode.code])

theorem EncodingLegal.addReg (a b d : Reg) : Statement (.addReg a b d) :=
  legalBytes_of_accepts (row := ⟨.addReg, 4, 0x52000000, 0xFF000000, 0x00FCFCFC⟩) (by decide) <|
    (TableRow.accepts_iff (match' := [0x52#8, 0x00#8, 0x00#8, 0x00#8]) (mask' := [0xFF#8, 0x00#8, 0x00#8, 0x00#8])
      (reg' := [0x00#8, 0xFC#8, 0xFC#8, 0xFC#8]) (zero' := List.replicate 4 0x00#8)
      rfl rfl rfl rfl rfl rfl rfl rfl rfl).mpr (by simp [encode, Instr.opcode, Instr.operandBytes, Opcode.code])

theorem EncodingLegal.subReg (a b d : Reg) : Statement (.subReg a b d) :=
  legalBytes_of_accepts (row := ⟨.subReg, 4, 0x53000000, 0xFF000000, 0x00FCFCFC⟩) (by decide) <|
    (TableRow.accepts_iff (match' := [0x53#8, 0x00#8, 0x00#8, 0x00#8]) (mask' := [0xFF#8, 0x00#8, 0x00#8, 0x00#8])
      (reg' := [0x00#8, 0xFC#8, 0xFC#8, 0xFC#8]) (zero' := List.replicate 4 0x00#8)
      rfl rfl rfl rfl rfl rfl rfl rfl rfl).mpr (by simp [encode, Instr.opcode, Instr.operandBytes, Opcode.code])

theorem EncodingLegal.addImm (a : Reg) (v : Byte) (d : Reg) : Statement (.addImm a v d) :=
  legalBytes_of_accepts (row := ⟨.addImm, 4, 0x54000000, 0xFF000000, 0x00FC00FC⟩) (by decide) <|
    (TableRow.accepts_iff (match' := [0x54#8, 0x00#8, 0x00#8, 0x00#8]) (mask' := [0xFF#8, 0x00#8, 0x00#8, 0x00#8])
      (reg' := [0x00#8, 0xFC#8, 0x00#8, 0xFC#8]) (zero' := List.replicate 4 0x00#8)
      rfl rfl rfl rfl rfl rfl rfl rfl rfl).mpr (by simp [encode, Instr.opcode, Instr.operandBytes, Opcode.code])

theorem EncodingLegal.subImm (a : Reg) (v : Byte) (d : Reg) : Statement (.subImm a v d) :=
  legalBytes_of_accepts (row := ⟨.subImm, 4, 0x55000000, 0xFF000000, 0x00FC00FC⟩) (by decide) <|
    (TableRow.accepts_iff (match' := [0x55#8, 0x00#8, 0x00#8, 0x00#8]) (mask' := [0xFF#8, 0x00#8, 0x00#8, 0x00#8])
      (reg' := [0x00#8, 0xFC#8, 0x00#8, 0xFC#8]) (zero' := List.replicate 4 0x00#8)
      rfl rfl rfl rfl rfl rfl rfl rfl rfl).mpr (by simp [encode, Instr.opcode, Instr.operandBytes, Opcode.code])

end Sys2Proof.Laws
end

