-- ==== Sys2Proof/Laws/Step.lean ====
section
/-! SUPPORT. The window of bytes the decoder is given, and the step in terms of it: what an iteration
does when its bytes decode, and when they do not. -/

namespace Sys2Proof.Machine

theorem bytesAt_cons {m : Memory} {a : Nat} {b : Byte} {bs : List Byte} :
    bytesAt m a (b :: bs) = true ↔ a < 65535 ∧ m.get a = b ∧ bytesAt m (a + 1) bs = true := by
  rw [bytesAt]
  simp only [Bool.and_eq_true, decide_eq_true_eq, and_assoc]
  exact Iff.rfl

theorem bytesAt_append {m : Memory} {xs ys : List Byte} : ∀ {a : Nat},
    bytesAt m a (xs ++ ys) = true ↔
      bytesAt m a xs = true ∧ bytesAt m (a + xs.length) ys = true := by
  induction xs with
  | nil => simp [bytesAt]
  | cons x xs ih =>
    intro a
    simp only [List.cons_append, bytesAt_cons, ih, List.length_cons, and_assoc]
    rw [show a + 1 + xs.length = a + (xs.length + 1) by omega]

/-- Bytes that exist end at or below 0xFFFE. -/
theorem bytesAt_fits {m : Memory} {bs : List Byte} : ∀ {a : Nat}, a ≤ 65535 →
    bytesAt m a bs = true → a + bs.length ≤ 65535 := by
  induction bs with
  | nil => intro a h _; simpa using h
  | cons b bs ih =>
    intro a _ h
    rw [bytesAt_cons] at h
    have := ih (by omega) h.2.2
    simp only [List.length_cons]
    omega

theorem bytesFrom_of_bytesAt {m : Memory} {bs : List Byte} : ∀ {n a : Nat}, bs.length ≤ n →
    bytesAt m a bs = true →
    bytesFrom m n a = bs ++ bytesFrom m (n - bs.length) (a + bs.length) := by
  induction bs with
  | nil => intros; rfl
  | cons b bs ih =>
    intro n a hn h
    rw [bytesAt_cons] at h
    obtain ⟨n, rfl⟩ : ∃ k, n = k + 1 := ⟨n - 1, by simp only [List.length_cons] at hn; omega⟩
    simp only [List.length_cons] at hn
    rw [bytesFrom, if_pos (show a < Config.memSize from h.1), h.2.1, ih (by omega) h.2.2]
    simp only [List.cons_append, List.length_cons]
    rw [show n + 1 - (bs.length + 1) = n - bs.length by omega,
      show a + 1 + bs.length = a + (bs.length + 1) by omega]

@[simp] theorem bytesFrom_top (m : Memory) (n : Nat) : bytesFrom m n 65535 = [] := by
  cases n <;> simp [bytesFrom, Config.memSize]

/-- The window is the bytes of the cells it covers. -/
theorem bytesAt_bytesFrom (m : Memory) : ∀ n a, bytesAt m a (bytesFrom m n a) = true := by
  intro n
  induction n with
  | zero => intro a; rfl
  | succ n ih =>
    intro a
    unfold bytesFrom
    split
    · exact bytesAt_cons.mpr ⟨‹_›, rfl, ih _⟩
    · rfl

/-- The window begins with the bytes seen. -/
theorem window_of_sees {s : State} {bs : List Byte} (hs : s.Sees bs) (hl : bs.length ≤ 4) :
    ∃ rest, s.hostPhase.window = bs ++ rest :=
  ⟨_, bytesFrom_of_bytesAt hl hs⟩

/-- The window ends where the next byte would be at 0xFFFF. -/
theorem window_at_top {s : State} {bs : List Byte} (hs : s.Sees bs) (hl : bs.length ≤ 4)
    (ht : s.pc.toNat + bs.length = 65535) : s.hostPhase.window = bs := by
  have h := bytesFrom_of_bytesAt (n := 4) hl hs
  rw [ht, bytesFrom_top, List.append_nil] at h
  exact h

theorem sees_window (s : State) : s.Sees s.hostPhase.window := bytesAt_bytesFrom _ _ _

/-- A running core makes an iteration. -/
theorem step_running {s : State} (h : s.status = .running) : step s = iteration s := by
  simp [step, h]

/-- A core that is not running makes the host's next call. -/
theorem step_not_running {s : State} (h : s.status ≠ .running) : step s = hostCall s := by
  unfold step
  split <;> first | rfl | exact absurd ‹_› h

theorem step_cancelled {s : State} (h : s.status = .running) (hc : s.answer.cancel = true) :
    step s = .next (s.hostPhase.raise .adapterCancelled) := by
  simp [step_running h, iteration, hc]

theorem step_fetches {s : State} (h : s.Fetches) : step s = fetchExecute s.hostPhase := by
  simp [step_running h.1, iteration, h.2]

theorem step_of_decode_ok {s : State} (h : s.Fetches) {i : Instr} {rest : List Byte}
    (hd : decode s.hostPhase.window = .ok (i, rest)) :
    step s = exec i (s.hostPhase.advance i) := by
  simp [step_fetches h, fetchExecute, State.fetchDecode, hd]

theorem step_of_decode_error {s : State} (h : s.Fetches) {e : DecodeError}
    (hd : decode s.hostPhase.window = .error e) :
    step s = .next (s.hostPhase.raise (errorKindOf e)) := by
  simp [step_fetches h, fetchExecute, State.fetchDecode, hd]

/-- An iteration runs the instruction that the bytes it sees decode to, whatever follows them. -/
theorem step_of_sees {s : State} (h : s.Fetches) {i : Instr} {bs : List Byte}
    (hs : s.Sees bs) (hl : bs.length ≤ 4) (hd : ∀ rest, decode (bs ++ rest) = .ok (i, rest)) :
    step s = exec i (s.hostPhase.advance i) := by
  obtain ⟨rest, hw⟩ := window_of_sees hs hl
  exact step_of_decode_ok h (hw ▸ hd rest)

/-- An iteration fails with the error that the bytes it sees decode to, whatever follows them. -/
theorem failsWith_of_sees {s : State} (h : s.Fetches) {e : DecodeError} {bs : List Byte}
    (hs : s.Sees bs) (hl : bs.length ≤ 4) (hd : ∀ rest, decode (bs ++ rest) = .error e) :
    FailsWith (errorKindOf e) s := by
  obtain ⟨rest, hw⟩ := window_of_sees hs hl
  exact ⟨_, step_of_decode_error h (hw ▸ hd rest), rfl, raise_only _ _⟩

/-- An iteration fails with AddressOutOfRange when the decoder needs a byte at 0xFFFF. -/
theorem failsWith_at_top {s : State} (h : s.Fetches) {bs : List Byte}
    (hs : s.Sees bs) (hl : bs.length ≤ 4) (ht : s.pc.toNat + bs.length = 65535)
    (hd : decode bs = .error .outOfBytes) : FailsWith .addressOutOfRange s :=
  ⟨_, step_of_decode_error h ((window_at_top hs hl ht).symm ▸ hd), rfl, raise_only _ _⟩

/-- `OperandErrors` in the decoder's terms: after the bytes `seen` the decoder needs another byte, and
refuses an illegal one whatever follows it. -/
def DecodeErrors : (seen : List Byte) → List OperandByte → Prop
  | _, [] => True
  | seen, k :: ks =>
    decode seen = .error .outOfBytes
      ∧ (∀ b, k.legal b = false → ∀ rest,
          decode (seen ++ b :: rest) = .error .invalidRegisterIndex)
      ∧ (∀ b, k.legal b = true → DecodeErrors (seen ++ [b]) ks)

/-! The decoder's errors of each format (R82, R84) -/

theorem fetchReg_illegal {b : Byte} (h : OperandByte.regIndex.legal b = false) (bs : List Byte) :
    fetchReg (b :: bs) = .error .invalidRegisterIndex :=
  fetchReg_invalid (by simpa [OperandByte.legal] using h) bs

theorem exists_reg_of_legal {b : Byte} (h : OperandByte.regIndex.legal b = true) :
    ∃ r : Reg, b = r.byte := exists_reg_of_le (by simpa [OperandByte.legal] using h)

theorem not_raw_illegal (b : Byte) : ¬ OperandByte.raw.legal b = false := by
  simp [OperandByte.legal]

theorem decodeErrors_oneReg {op : Byte} {mk : Reg → Instr}
    (h : ∀ bs, decode (op :: bs) = fetchOneReg mk bs) : DecodeErrors [op] [.regIndex] :=
  ⟨by rw [h]; rfl, fun b hb rest => by simp [h, fetchOneReg, fetchReg_illegal hb],
    fun _ _ => trivial⟩

theorem decodeErrors_regImm {op : Byte} {mk : Reg → Byte → Instr}
    (h : ∀ bs, decode (op :: bs) = fetchRegImm mk bs) : DecodeErrors [op] [.regIndex, .raw] := by
  refine ⟨by rw [h]; rfl, fun b hb rest => by simp [h, fetchRegImm, fetchReg_illegal hb],
    fun b hb => ?_⟩
  obtain ⟨r, rfl⟩ := exists_reg_of_legal hb
  exact ⟨by simp [h, fetchRegImm], fun b hb => absurd hb (not_raw_illegal b), fun _ _ => trivial⟩

theorem decodeErrors_twoRegs {op : Byte} {mk : Reg → Reg → Instr}
    (h : ∀ bs, decode (op :: bs) = fetchTwoRegs mk bs) :
    DecodeErrors [op] [.regIndex, .regIndex] := by
  refine ⟨by rw [h]; rfl, fun b hb rest => by simp [h, fetchTwoRegs, fetchReg_illegal hb],
    fun b hb => ?_⟩
  obtain ⟨r, rfl⟩ := exists_reg_of_legal hb
  exact ⟨by simp [h, fetchTwoRegs],
    fun b hb rest => by simp [h, fetchTwoRegs, fetchReg_illegal hb], fun _ _ => trivial⟩

theorem decodeErrors_regAddr {op : Byte} {mk : Reg → Addr → Instr}
    (h : ∀ bs, decode (op :: bs) = fetchRegAddr mk bs) :
    DecodeErrors [op] [.regIndex, .raw, .raw] := by
  refine ⟨by rw [h]; rfl, fun b hb rest => by simp [h, fetchRegAddr, fetchReg_illegal hb],
    fun b hb => ?_⟩
  obtain ⟨r, rfl⟩ := exists_reg_of_legal hb
  exact ⟨by simp [h, fetchRegAddr], fun b hb => absurd hb (not_raw_illegal b), fun b _ =>
    ⟨by simp [h, fetchRegAddr], fun b hb => absurd hb (not_raw_illegal b), fun _ _ => trivial⟩⟩

theorem decodeErrors_addrReg {op : Byte} {mk : Addr → Reg → Instr}
    (h : ∀ bs, decode (op :: bs) = fetchAddrReg mk bs) :
    DecodeErrors [op] [.raw, .raw, .regIndex] :=
  ⟨by rw [h]; rfl, fun b hb => absurd hb (not_raw_illegal b), fun b _ =>
    ⟨by simp [h, fetchAddrReg], fun b hb => absurd hb (not_raw_illegal b), fun b' _ =>
      ⟨by simp [h, fetchAddrReg], fun b hb rest => by simp [h, fetchAddrReg, fetchReg_illegal hb],
        fun _ _ => trivial⟩⟩⟩

theorem decodeErrors_threeRegs {op : Byte} {mk : Reg → Reg → Reg → Instr}
    (h : ∀ bs, decode (op :: bs) = fetchThreeRegs mk bs) :
    DecodeErrors [op] [.regIndex, .regIndex, .regIndex] := by
  refine ⟨by rw [h]; rfl, fun b hb rest => by simp [h, fetchThreeRegs, fetchReg_illegal hb],
    fun b hb => ?_⟩
  obtain ⟨r, rfl⟩ := exists_reg_of_legal hb
  refine ⟨by simp [h, fetchThreeRegs],
    fun b hb rest => by simp [h, fetchThreeRegs, fetchReg_illegal hb], fun b hb => ?_⟩
  obtain ⟨q, rfl⟩ := exists_reg_of_legal hb
  exact ⟨by simp [h, fetchThreeRegs],
    fun b hb rest => by simp [h, fetchThreeRegs, fetchReg_illegal hb], fun _ _ => trivial⟩

theorem decodeErrors_regImmReg {op : Byte} {mk : Reg → Byte → Reg → Instr}
    (h : ∀ bs, decode (op :: bs) = fetchRegImmReg mk bs) :
    DecodeErrors [op] [.regIndex, .raw, .regIndex] := by
  refine ⟨by rw [h]; rfl, fun b hb rest => by simp [h, fetchRegImmReg, fetchReg_illegal hb],
    fun b hb => ?_⟩
  obtain ⟨r, rfl⟩ := exists_reg_of_legal hb
  exact ⟨by simp [h, fetchRegImmReg], fun b hb => absurd hb (not_raw_illegal b), fun b _ =>
    ⟨by simp [h, fetchRegImmReg],
      fun b hb rest => by simp [h, fetchRegImmReg, fetchReg_illegal hb], fun _ _ => trivial⟩⟩

/-- The operand errors of an iteration are those of the decoder. -/
theorem operandErrors_of_decode {s : State} (h : s.Fetches) : ∀ {ks : List OperandByte}
    {seen : List Byte}, seen.length + ks.length ≤ 4 → DecodeErrors seen ks →
    OperandErrors s seen ks := by
  intro ks
  induction ks with
  | nil => intros; trivial
  | cons k ks ih =>
    intro seen hl hd
    simp only [List.length_cons] at hl
    refine ⟨fun hs ht => failsWith_at_top h hs (by omega) ht hd.1, fun b hb hs => ?_,
      fun b hb => ih (by simp; omega) (hd.2.2 b hb)⟩
    refine failsWith_of_sees (e := .invalidRegisterIndex) h hs (by simp; omega) fun rest => ?_
    rw [List.append_assoc]
    exact hd.2.1 b hb rest

/-- After the fetches `pc` is J + L: it does not wrap, since all L bytes exist (R36, R106). -/
theorem advance_pc_toNat {s : State} {i : Instr} {bs : List Byte} (hs : s.Sees bs)
    (hl : bs.length = i.length) : (s.hostPhase.advance i).pc.toNat = s.pc.toNat + i.length := by
  have hp := s.pc.isLt
  have hi := i.length_le
  cases bs with
  | nil => simp at hl; omega
  | cons b bs =>
    have h1 := (bytesAt_cons.mp hs).1
    have := bytesAt_fits (by omega) hs
    simp only [State.advance_pc, State.hostPhase_pc, BitVec.toNat_add, BitVec.toNat_ofNat]
    omega

/-- Everything a step of a running core can do. -/
theorem step_running_cases {s : State} (h : s.status = .running) :
    (s.answer.cancel = true ∧ step s = .next (s.hostPhase.raise .adapterCancelled))
    ∨ (s.answer.cancel = false ∧ ∃ e, decode s.hostPhase.window = .error e
        ∧ step s = .next (s.hostPhase.raise (errorKindOf e)))
    ∨ (s.answer.cancel = false ∧ ∃ i rest, decode s.hostPhase.window = .ok (i, rest)
        ∧ step s = exec i (s.hostPhase.advance i)) := by
  cases hc : s.answer.cancel with
  | true => exact .inl ⟨rfl, step_cancelled h hc⟩
  | false =>
    have hf : s.Fetches := ⟨h, hc⟩
    cases hd : decode s.hostPhase.window with
    | error e => exact .inr (.inl ⟨rfl, e, rfl, step_of_decode_error hf hd⟩)
    | ok p => exact .inr (.inr ⟨rfl, p.1, p.2, rfl, step_of_decode_ok hf hd⟩)

/-- Everything a host call that is answered can do. -/
theorem hostCall_cases {s t : State} (h : hostCall s = .next t) :
    (∃ program rest, s.calls = .load program :: rest ∧ s.status = .idle
      ∧ s.loadResult = .notCalled ∧ program.length ≤ Config.maxProgram
      ∧ t = { s with
          calls := rest, mem := s.mem.setAll Config.loadBase.toNat program,
          pc := Config.loadBase, loadResult := .accepted })
    ∨ (∃ program rest, s.calls = .load program :: rest ∧ s.status = .idle
      ∧ s.loadResult = .notCalled ∧ Config.maxProgram < program.length
      ∧ t = { s with calls := rest, loadResult := .programTooLarge })
    ∨ (∃ rest, s.calls = .run :: rest ∧ (s.status = .idle ∨ s.status = .halted)
      ∧ t = { s with calls := rest, status := .running }) := by
  unfold hostCall at h
  split at h
  · cases h
  · rename_i program rest hc
    unfold performLoad at h
    split at h
    all_goals first | cases h | skip
    rename_i h1 h2
    split at h
    · cases h
      exact .inl ⟨program, rest, hc, h1, h2, ‹_›, rfl⟩
    · cases h
      exact .inr (.inl ⟨program, rest, hc, h1, h2, by omega, rfl⟩)
  · rename_i rest hc
    unfold performRun at h
    split at h
    all_goals cases h
    · exact .inr (.inr ⟨rest, hc, .inl ‹_›, rfl⟩)
    · exact .inr (.inr ⟨rest, hc, .inr ‹_›, rfl⟩)

/-! How an instruction is placed for the next step -/

theorem tableWordBytes_length (nbits w : Nat) : (tableWordBytes nbits w).length = 4 := by
  simp [tableWordBytes, Config.maxInstrLength]

theorem bytesAt_of_get {m : Memory} {bs : List Byte} : ∀ {a : Nat}, a + bs.length ≤ 65535 →
    (∀ k (h : k < bs.length), m.get (a + k) = bs[k]) → bytesAt m a bs = true := by
  induction bs with
  | nil => intros; rfl
  | cons b bs ih =>
    intro a hf hg
    simp only [List.length_cons] at hf
    refine bytesAt_cons.mpr ⟨by omega, hg 0 (by simp), ih (by omega) ?_⟩
    intro k hk
    have := hg (k + 1) (by simpa using hk)
    rw [show a + 1 + k = a + (k + 1) by omega, this]
    simp

theorem placeAt_fits (s : State) : s.placeAt.toNat + 4 ≤ 65535 := by
  unfold State.placeAt
  split
  · rename_i h
    simpa [fitsAt, Config.memSize, Config.maxInstrLength] using h
  · decide

/-- The next iteration sees exactly the placed bytes, wherever they are: the input write of its host
phase does not change them. -/
theorem placeBytes_sees (s : State) {bs : List Byte} (hl : bs.length = 4) :
    (s.placeBytes bs).Fetches ∧ (s.placeBytes bs).Sees bs := by
  refine ⟨⟨rfl, rfl⟩, ?_⟩
  have hf := placeAt_fits s
  apply bytesAt_of_get
  · simpa [hl] using hf
  · intro k hk
    simp only [State.placeBytes_pc, State.hostPhase_mem, State.placeBytes_mem]
    by_cases hi : s.placeAt.toNat + k = Config.inputAddr
    · rw [hi, Memory.get_set_same]
      have hle : s.placeAt.toNat ≤ Config.inputAddr := by omega
      have hk' : Config.inputAddr - s.placeAt.toNat = k := by omega
      simp [State.answer, State.placeBytes, AdapterAnswer.inputByte, hle, hk', hk]
    · rw [Memory.get_set_other _ _ hi, Memory.get_setAll_inside _ _ _ _ hk]

/-- The very next step runs exactly the instruction of the table word, from any state. -/
theorem step_withFetchWord (s : State) {nbits w : Nat} {i : Instr}
    (h : decodeTableWord nbits w = some i) :
    step (s.withFetchWord nbits w) =
      exec i ((s.withFetchWord nbits w).hostPhase.advance i) := by
  unfold State.withFetchWord
  obtain ⟨hf, hs⟩ := placeBytes_sees s (tableWordBytes_length nbits w)
  obtain ⟨rest, hw⟩ := window_of_sees hs (by simp [tableWordBytes_length])
  have hlen := congrArg List.length hw
  have hwl : ∀ m n a, (bytesFrom m n a).length ≤ n := by
    intro m n
    induction n with
    | zero => intro a; simp [bytesFrom]
    | succ n ih =>
      intro a
      unfold bytesFrom
      split
      · simpa using ih _
      · simp
  have hle := hwl ((s.placeBytes (tableWordBytes nbits w)).hostPhase.mem) 4
    ((s.placeBytes (tableWordBytes nbits w)).hostPhase.pc.toNat)
  change (State.window _).length ≤ 4 at hle
  rw [hlen, List.length_append, tableWordBytes_length] at hle
  obtain rfl : rest = [] := List.eq_nil_of_length_eq_zero (by omega)
  rw [List.append_nil] at hw
  unfold decodeTableWord at h
  split at h
  · rename_i j rest hj
    cases h
    exact step_of_decode_ok hf (hw ▸ hj)
  · cases h

end Sys2Proof.Machine
end

