-- ==== Sys2Proof/Tests/Slice0.lean ====
section
/-! SUPPORT. The model's own tests. Expected results are hand-read from the encodings of
30_encoding.md and from the vectors of 95_test_vectors.md, which each test names. The witnesses at the
end show, for every statement with hypotheses, concrete states and operands that meet them. -/

namespace Sys2Proof.Tests

open Sys2Proof Sys2Proof.Machine

/-- A core running at `pc` with these bytes there, these registers, and an adapter that answers once,
none and no cancellation (the conventions of 95_test_vectors.md). -/
def stAt (pc : Nat) (bs : List Byte) (regs : RegFile := RegFile.zero) : State :=
  { State.reset with
    pc := BitVec.ofNat 16 pc, mem := Memory.setAll [] pc bs, status := .running, regs := regs,
    adapter := [⟨none, false⟩] }

/-- The next state of an outcome that has one. -/
def nextOf : Result → Option State
  | .next t => some t
  | .fault _ => none
  | .refused _ => none

/-- One step from `stAt`: a register and the `pc` after it. -/
def regPc (r : Reg) (pc : Nat) (bs : List Byte) (regs : RegFile := RegFile.zero) :
    Option (Byte × Addr) :=
  (nextOf (step (stAt pc bs regs))).map fun t => (t.readReg r, t.pc)

/-- One step from `stAt`: the status after it. -/
def statusAfter (pc : Nat) (bs : List Byte) (regs : RegFile := RegFile.zero) : Option Status :=
  (nextOf (step (stAt pc bs regs))).map (·.status)

/-! Well-formedness: each check refuses an ill-formed term (R79, R87, R93, R94, R203) -/

theorem test_wf_accepts_add_reg : legalBytes [0x52#8, 0x00#8, 0x01#8, 0x02#8] = true := by decide
theorem test_wf_refuses_illegal_opcode : legalBytes [0x60#8] = false := by decide
theorem test_wf_refuses_register_byte_four : legalBytes [0x50#8, 0x04#8] = false := by decide
theorem test_wf_refuses_short_word : legalBytes [0x10#8, 0x00#8] = false := by decide
theorem test_wf_refuses_long_word : legalBytes [0x00#8, 0x00#8] = false := by decide
theorem test_wf_accepts_any_value_byte : legalBytes [0x54#8, 0x00#8, 0xFF#8, 0x01#8] = true := by
  decide
theorem test_fits_below_the_missing_cell : fitsAt 0xFFFB 4 = true := by decide
theorem test_refuses_to_fit_over_the_missing_cell : fitsAt 0xFFFC 4 = false := by decide
theorem test_loadable_accepts_the_largest : loadable (List.replicate 32767 0xFF#8) = true :=
  decide_eq_true (by rw [List.length_replicate]; decide)
theorem test_loadable_refuses_one_more : loadable (List.replicate 32768 0xFF#8) = false :=
  decide_eq_false (by rw [List.length_replicate]; decide)
theorem test_rows_do_not_overlap :
    opcodeTable.Pairwise (fun p q => p.length ≠ q.length ∨ p.matchBits ≠ q.matchBits) := by decide

/-! Decoding: for every constructor a word written out from its format in R82 -/

theorem test_decode_halt : decode [0x00#8] = .ok (.halt, []) := by decide
theorem test_decode_nop : decode [0xFF#8] = .ok (.nop, []) := by decide
theorem test_decode_load_immediate : decode [0x10#8, 0x03#8, 0x7F#8] = .ok (.loadImmediate .r3 0x7F#8, []) := by decide
theorem test_decode_load_register : decode [0x11#8, 0x02#8, 0x01#8] = .ok (.loadRegister .r2 .r1, []) := by decide
theorem test_decode_load_memory : decode [0x12#8, 0x03#8, 0x12#8, 0x34#8] = .ok (.loadMemory .r3 0x1234#16, []) := by decide
theorem test_decode_store_memory : decode [0x20#8, 0x12#8, 0x34#8, 0x02#8] = .ok (.storeMemory 0x1234#16 .r2, []) := by decide
theorem test_decode_cmp_eq_reg : decode [0x30#8, 0x00#8, 0x01#8, 0x02#8] = .ok (.cmpEqReg .r0 .r1 .r2, []) := by decide
theorem test_decode_cmp_eq_imm : decode [0x31#8, 0x00#8, 0xFF#8, 0x01#8] = .ok (.cmpEqImm .r0 0xFF#8 .r1, []) := by decide
theorem test_decode_cmp_gt_reg : decode [0x32#8, 0x01#8, 0x02#8, 0x03#8] = .ok (.cmpGtReg .r1 .r2 .r3, []) := by decide
theorem test_decode_cmp_lt_reg : decode [0x33#8, 0x03#8, 0x00#8, 0x01#8] = .ok (.cmpLtReg .r3 .r0 .r1, []) := by decide
theorem test_decode_jump_if : decode [0x40#8, 0x01#8, 0x80#8, 0x03#8] = .ok (.jumpIf .r1 0x8003#16, []) := by decide
theorem test_decode_inc : decode [0x50#8, 0x02#8] = .ok (.inc .r2, []) := by decide
theorem test_decode_dec : decode [0x51#8, 0x01#8] = .ok (.dec .r1, []) := by decide
theorem test_decode_add_reg : decode [0x52#8, 0x00#8, 0x01#8, 0x02#8] = .ok (.addReg .r0 .r1 .r2, []) := by decide
theorem test_decode_sub_reg : decode [0x53#8, 0x02#8, 0x00#8, 0x01#8] = .ok (.subReg .r2 .r0 .r1, []) := by decide
theorem test_decode_add_imm : decode [0x54#8, 0x00#8, 0x05#8, 0x01#8] = .ok (.addImm .r0 0x05#8 .r1, []) := by decide
theorem test_decode_sub_imm : decode [0x55#8, 0x02#8, 0x04#8, 0x03#8] = .ok (.subImm .r2 0x04#8 .r3, []) := by decide

/-- V-DEC-12: the register byte after the address is validated. -/
theorem test_decode_invalid_last_byte :
    decode [0x20#8, 0xFF#8, 0xFF#8, 0x05#8] = .error .invalidRegisterIndex := by decide
/-- V-CMP-14: the first offending byte stops the decoding. -/
theorem test_decode_stops_at_first_error :
    decode [0x30#8, 0x05#8] = .error .invalidRegisterIndex := by decide
/-- R87: no operand byte is needed to see an illegal opcode. -/
theorem test_decode_unknown : decode [0xFE#8] = .error .unknownOpcode := by decide
/-- R106: an operand byte that does not exist. -/
theorem test_decode_out_of_bytes : decode [0x10#8, 0x00#8] = .error .outOfBytes := by decide
/-- R93: the first byte is the most significant of a table word. -/
theorem test_table_word_is_big_endian :
    decodeTableWord 24 0x10037F = some (.loadImmediate .r3 0x7F#8) := by decide
theorem test_table_word_of_store :
    decodeTableWord 32 0x20123402 = some (.storeMemory 0x1234#16 .r2) := by decide

/-! The instructions, one step each -/

/-- V-LD-1. -/
theorem test_load_immediate :
    regPc .r3 0x8000 [0x10#8, 0x03#8, 0x7F#8]
      = some (0x7F#8, 0x8003#16) := by decide
/-- E1. -/
theorem test_load_immediate_top_value :
    regPc .r0 0x8000 [0x10#8, 0x00#8, 0xFF#8]
      = some (0xFF#8, 0x8003#16) := by decide
/-- V-LD-3. -/
theorem test_load_register :
    regPc .r0 0x8000 [0x11#8, 0x00#8, 0x01#8] ⟨0x00#8, 0x2A#8, 0x00#8, 0x00#8⟩
      = some (0x2A#8, 0x8003#16) := by decide
/-- V-LD-6. -/
theorem test_load_memory_own_opcode :
    regPc .r1 0x8000 [0x12#8, 0x01#8, 0x80#8, 0x00#8]
      = some (0x12#8, 0x8004#16) := by decide
/-- V-LD-8: the host phase overwrites 0x0100 first. -/
theorem test_load_memory_input_cell :
    regPc .r0 0x8000 [0x12#8, 0x00#8, 0x01#8, 0x00#8] ⟨0x33#8, 0x00#8, 0x00#8, 0x00#8⟩
      = some (0x00#8, 0x8004#16) := by decide
/-- V-CMP-2. -/
theorem test_cmp_eq_reg_unequal :
    regPc .r2 0x8000 [0x30#8, 0x00#8, 0x01#8, 0x02#8] ⟨0x64#8, 0xC8#8, 0x77#8, 0x00#8⟩
      = some (0x00#8, 0x8004#16) := by decide
/-- V-CMP-3. -/
theorem test_cmp_eq_reg_dest_is_source :
    regPc .r0 0x8000 [0x30#8, 0x00#8, 0x00#8, 0x00#8] ⟨0x05#8, 0x00#8, 0x00#8, 0x00#8⟩
      = some (0x01#8, 0x8004#16) := by decide
/-- V-CMP-6. -/
theorem test_cmp_eq_imm_top_value :
    regPc .r1 0x8000 [0x31#8, 0x00#8, 0xFF#8, 0x01#8] ⟨0xFF#8, 0x00#8, 0x00#8, 0x00#8⟩
      = some (0x01#8, 0x8004#16) := by decide
/-- V-CMP-5. -/
theorem test_cmp_eq_imm_unequal :
    regPc .r1 0x8000 [0x31#8, 0x00#8, 0x00#8, 0x01#8] ⟨0x07#8, 0x77#8, 0x00#8, 0x00#8⟩
      = some (0x00#8, 0x8004#16) := by decide
/-- V-CMP-7. -/
theorem test_cmp_gt_reg_is_unsigned :
    regPc .r2 0x8000 [0x32#8, 0x00#8, 0x01#8, 0x02#8] ⟨0x80#8, 0x7F#8, 0x00#8, 0x00#8⟩
      = some (0x01#8, 0x8004#16) := by decide
/-- V-CMP-8. -/
theorem test_cmp_gt_reg_smaller :
    regPc .r2 0x8000 [0x32#8, 0x00#8, 0x01#8, 0x02#8] ⟨0x00#8, 0xFF#8, 0x77#8, 0x00#8⟩
      = some (0x00#8, 0x8004#16) := by decide
/-- V-CMP-10. -/
theorem test_cmp_lt_reg_is_register_against_register :
    regPc .r2 0x8000 [0x33#8, 0x00#8, 0x01#8, 0x02#8] ⟨0x03#8, 0x09#8, 0x00#8, 0x00#8⟩
      = some (0x01#8, 0x8004#16) := by decide
/-- V-CMP-12. -/
theorem test_cmp_lt_reg_same_register :
    regPc .r2 0x8000 [0x33#8, 0x01#8, 0x01#8, 0x02#8] ⟨0x00#8, 0x40#8, 0x77#8, 0x00#8⟩
      = some (0x00#8, 0x8004#16) := by decide
/-- V-JMP-1. -/
theorem test_jump_if_taken :
    regPc .r1 0x8000 [0x40#8, 0x01#8, 0x12#8, 0x34#8] ⟨0x00#8, 0x01#8, 0x00#8, 0x00#8⟩
      = some (0x01#8, 0x1234#16) := by decide
/-- V-JMP-3. -/
theorem test_jump_if_two_is_not_taken :
    regPc .r1 0x8000 [0x40#8, 0x01#8, 0x12#8, 0x34#8] ⟨0x00#8, 0x02#8, 0x00#8, 0x00#8⟩
      = some (0x02#8, 0x8004#16) := by decide
/-- V-ALU-1. -/
theorem test_inc_wraps :
    regPc .r3 0x8000 [0x50#8, 0x03#8] ⟨0x00#8, 0x00#8, 0x00#8, 0xFF#8⟩
      = some (0x00#8, 0x8002#16) := by decide
/-- V-ALU-3. -/
theorem test_dec_wraps :
    regPc .r0 0x8000 [0x51#8, 0x00#8] ⟨0x00#8, 0x00#8, 0x00#8, 0x00#8⟩
      = some (0xFF#8, 0x8002#16) := by decide
/-- V-ALU-5. -/
theorem test_add_reg_wraps :
    regPc .r2 0x8000 [0x52#8, 0x00#8, 0x01#8, 0x02#8] ⟨0xFF#8, 0x05#8, 0x00#8, 0x00#8⟩
      = some (0x04#8, 0x8004#16) := by decide
/-- V-ALU-7. -/
theorem test_add_reg_dest_is_source :
    regPc .r0 0x8000 [0x52#8, 0x00#8, 0x01#8, 0x00#8] ⟨0x03#8, 0x04#8, 0x00#8, 0x00#8⟩
      = some (0x07#8, 0x8004#16) := by decide
/-- V-ALU-8. -/
theorem test_sub_reg_wraps :
    regPc .r2 0x8000 [0x53#8, 0x00#8, 0x01#8, 0x02#8] ⟨0x00#8, 0x05#8, 0x00#8, 0x00#8⟩
      = some (0xFB#8, 0x8004#16) := by decide
/-- V-ALU-11. -/
theorem test_sub_reg_first_is_minuend :
    regPc .r2 0x8000 [0x53#8, 0x01#8, 0x00#8, 0x02#8] ⟨0x05#8, 0x03#8, 0x00#8, 0x00#8⟩
      = some (0xFE#8, 0x8004#16) := by decide
/-- V-ALU-12. -/
theorem test_add_imm_wraps :
    regPc .r1 0x8000 [0x54#8, 0x00#8, 0x05#8, 0x01#8] ⟨0xFE#8, 0x00#8, 0x00#8, 0x00#8⟩
      = some (0x03#8, 0x8004#16) := by decide
/-- V-ALU-15. -/
theorem test_sub_imm_wraps :
    regPc .r3 0x8000 [0x55#8, 0x02#8, 0x04#8, 0x03#8] ⟨0x00#8, 0x00#8, 0x03#8, 0x00#8⟩
      = some (0xFF#8, 0x8004#16) := by decide
/-- V-DEC-10. -/
theorem test_nop_at_the_last_cell :
    regPc .r0 0xFFFE [0xFF#8] ⟨0x05#8, 0x00#8, 0x00#8, 0x00#8⟩
      = some (0x05#8, 0xFFFF#16) := by decide
/-- V-HLT-1. -/
theorem test_halt :
    regPc .r0 0x8000 [0x00#8] ⟨0x05#8, 0x00#8, 0x00#8, 0x00#8⟩
      = some (0x05#8, 0x8001#16) := by decide
/-- V-HLT-1. -/
theorem test_halt_status :
    statusAfter 0x8000 [0x00#8] = some .halted := by decide
/-- V-HLT-2. -/
theorem test_nop_status :
    statusAfter 0x8000 [0xFF#8] = some .running := by decide
/-- V-LD-9. -/
theorem test_load_memory_missing_cell_fails :
    statusAfter 0x8000 [0x12#8, 0x00#8, 0xFF#8, 0xFF#8] = some (.failed .addressOutOfRange) := by decide
/-- V-ST-2. -/
theorem test_store_memory_missing_cell_fails :
    statusAfter 0x8000 [0x20#8, 0xFF#8, 0xFF#8, 0x00#8] = some (.failed .addressOutOfRange) := by decide
/-- V-LD-11: the register error wins. -/
theorem test_load_memory_register_error_first :
    statusAfter 0x8000 [0x12#8, 0x07#8, 0xFF#8, 0xFF#8] = some (.failed .invalidRegisterIndex) := by decide
/-- V-CMP-9. -/
theorem test_cmp_lt_reg_third_byte_is_validated :
    statusAfter 0x8000 [0x33#8, 0x00#8, 0x05#8, 0x01#8] ⟨0x03#8, 0x00#8, 0x00#8, 0x00#8⟩ = some (.failed .invalidRegisterIndex) := by decide
/-- V-DEC-8. -/
theorem test_unknown_opcode_at_the_last_cell :
    statusAfter 0xFFFE [0xFE#8] = some (.failed .unknownOpcode) := by decide
/-- V-DEC-5. -/
theorem test_opcode_fetch_at_the_missing_cell :
    statusAfter 0xFFFF [] = some (.failed .addressOutOfRange) := by decide
/-- V-JMP-6: the not-taken skip past 0xFFFF. -/
theorem test_jump_if_skip_carries :
    statusAfter 0xFFFC [0x40#8, 0x00#8, 0x80#8] = some (.failed .addressOutOfRange) := by decide
/-- V-JMP-7: the taken path, same address. -/
theorem test_jump_if_taken_target_missing :
    statusAfter 0xFFFC [0x40#8, 0x00#8, 0x80#8] ⟨0x01#8, 0x00#8, 0x00#8, 0x00#8⟩ = some (.failed .addressOutOfRange) := by decide
/-- V-DEC-6. -/
theorem test_invalid_byte_before_the_missing_cell :
    statusAfter 0xFFFD [0x10#8, 0x04#8] = some (.failed .invalidRegisterIndex) := by decide
/-- V-ST-3: the last cell is writable. -/
theorem test_store_memory_last_cell :
    ((nextOf (step (stAt 0x8000 [0x20#8, 0xFF#8, 0xFE#8, 0x00#8] ⟨0xAB#8, 0x00#8, 0x00#8, 0x00#8⟩))).map
      fun t => (t.mem.get 0xFFFE, t.pc)) = some (0xAB#8, 0x8004#16) := by decide
/-- V-ST-5: a store over the instruction's own opcode byte; the byte then stands unlisted. -/
theorem test_store_memory_own_opcode :
    ((nextOf (step (stAt 0x8000 [0x20#8, 0x80#8, 0x00#8, 0x01#8]))).map fun t => t.mem)
      = some [(0x8001, 0x80#8), (0x8003, 0x01#8)] := by decide
/-- V-JMP-8: a not-taken skip that lands on 0xFFFF. -/
theorem test_jump_if_skip_to_the_missing_cell :
    regPc .r0 0xFFFB [0x40#8, 0x00#8, 0x80#8, 0x00#8] = some (0x00#8, 0xFFFF#16) := by decide

/-! The host phase and the host calls -/

/-- V-LD-7: the polled byte is read by the iteration's own LOAD_MEMORY. -/
theorem test_input_byte_is_loaded :
    ((nextOf (step { stAt 0x8000 [0x12#8, 0x00#8, 0x01#8, 0x00#8] with
      adapter := [⟨some 0x41#8, false⟩] })).map fun t => (t.readReg .r0, t.mem.get 0x0100))
      = some (0x41#8, 0x41#8) := by decide
/-- V-LOOP-1: a cancelled iteration keeps the input write and fetches nothing. -/
theorem test_cancelled :
    ((nextOf (step { stAt 0x8000 [0x10#8, 0x00#8, 0x07#8] with
      adapter := [⟨some 0x41#8, true⟩] })).map fun t => (t.status, t.pc, t.mem.get 0x0100))
      = some (.failed .adapterCancelled, 0x8000#16, 0x41#8) := by decide
/-- V-RST-1. -/
theorem test_reset : State.reset.pc = 0x0000#16 ∧ State.reset.status = .idle
    ∧ State.reset.mem.wf = true := by decide
/-- E10: load is a verbatim copy. -/
theorem test_load :
    ((nextOf (step { State.reset with
      calls := [.load [0xDE#8, 0xAD#8, 0xBE#8, 0xEF#8]] })).map fun t => (t.mem, t.pc, t.status))
      = some ([(0x8000, 0xDE#8), (0x8001, 0xAD#8), (0x8002, 0xBE#8), (0x8003, 0xEF#8)],
          0x8000#16, .idle) := by decide
/-- V-RST-2: the first iteration of a core that was never loaded. -/
theorem test_never_loaded_halts :
    ((nextOf (step { State.reset with status := .running, adapter := [⟨none, false⟩] })).map
      fun t => (t.status, t.pc)) = some (.halted, 0x0001#16) := by decide
/-- V-RST-6: run on a halted core. -/
theorem test_run_resumes_after_halt :
    ((nextOf (step { State.reset with status := .halted, pc := 0x8001#16, calls := [.run] })).map
      fun t => (t.status, t.pc)) = some (.running, 0x8001#16) := by decide
/-- E14: the display mapping. -/
theorem test_presented_intensity :
    presentedIntensity 0xAB#8 = 855036081#32 ∧ presentedIntensity 0xFF#8 = 4228250625#32 := by decide
/-- A table word placed from reset is what the very next step runs. -/
theorem test_fetch_word_runs :
    ((nextOf (step (State.reset.withFetchWord 24 0x10037F))).map
      fun t => (t.readReg .r3, t.pc)) = some (0x7F#8, 0x0003#16) := by decide

/-! Witnesses: for every statement with hypotheses, what meets them, at the boundaries of their
clauses -/

/-- `stAt pc bs` reaches its fetch and sees `bs`. -/
def met (pc : Nat) (bs : List Byte) : Bool :=
  decide (stAt pc bs).Fetches && decide ((stAt pc bs).Sees bs)

/-- `stAt` with `bs` as the last bytes that exist: it sees them, and the next would be at 0xFFFF. -/
def metAtTop (bs : List Byte) : Bool :=
  met (0xFFFF - bs.length) bs
    && decide ((stAt (0xFFFF - bs.length) bs).pc.toNat + bs.length = 0xFFFF)

/-- The byte 4 or 255 in place of a register index is illegal. -/
theorem witness_illegal_register_bytes :
    OperandByte.regIndex.legal 0x04#8 = false ∧ OperandByte.regIndex.legal 0xFF#8 = false
    ∧ OperandByte.regIndex.legal 0x03#8 = true ∧ OperandByte.raw.legal 0xFF#8 = true := by decide

theorem witness_HaltIterationFollowsItsRule :
    met 0x8000 [0x00#8] = true
    ∧ met 0xFFFE [0x00#8] = true := by
  decide

theorem witness_NopIterationFollowsItsRule :
    met 0x8000 [0xFF#8] = true
    ∧ met 0xFFFE [0xFF#8] = true := by
  decide

theorem witness_LoadImmediateIterationFollowsItsRule :
    met 0x8000 [0x10#8, 0x03#8, 0xFF#8] = true
    ∧ met 0xFFFC [0x10#8, 0x03#8, 0xFF#8] = true
    ∧ metAtTop [0x10#8] = true
    ∧ met 0x8000 [0x10#8, 0x04#8] = true
    ∧ metAtTop [0x10#8, 0x03#8] = true := by
  decide

theorem witness_LoadRegisterIterationFollowsItsRule :
    met 0x8000 [0x11#8, 0x02#8, 0x01#8] = true
    ∧ met 0xFFFC [0x11#8, 0x02#8, 0x01#8] = true
    ∧ metAtTop [0x11#8] = true
    ∧ met 0x8000 [0x11#8, 0x04#8] = true
    ∧ metAtTop [0x11#8, 0x02#8] = true
    ∧ met 0x8000 [0x11#8, 0x02#8, 0x04#8] = true := by
  decide

theorem witness_LoadMemoryIterationFollowsItsRule :
    met 0x8000 [0x12#8, 0x03#8, 0xFF#8, 0xFE#8] = true
    ∧ met 0xFFFB [0x12#8, 0x03#8, 0xFF#8, 0xFE#8] = true
    ∧ met 0x8000 [0x12#8, 0x03#8, 0xFF#8, 0xFF#8] = true
    ∧ metAtTop [0x12#8] = true
    ∧ met 0x8000 [0x12#8, 0x04#8] = true
    ∧ metAtTop [0x12#8, 0x03#8] = true
    ∧ metAtTop [0x12#8, 0x03#8, 0xFF#8] = true := by
  decide

theorem witness_StoreMemoryIterationFollowsItsRule :
    met 0x8000 [0x20#8, 0xFF#8, 0xFE#8, 0x01#8] = true
    ∧ met 0xFFFB [0x20#8, 0xFF#8, 0xFE#8, 0x01#8] = true
    ∧ met 0x8000 [0x20#8, 0xFF#8, 0xFF#8, 0x01#8] = true
    ∧ metAtTop [0x20#8] = true
    ∧ metAtTop [0x20#8, 0xFF#8] = true
    ∧ metAtTop [0x20#8, 0xFF#8, 0xFE#8] = true
    ∧ met 0x8000 [0x20#8, 0xFF#8, 0xFE#8, 0x04#8] = true := by
  decide

theorem witness_CmpEqRegIterationFollowsItsRule :
    met 0x8000 [0x30#8, 0x00#8, 0x01#8, 0x02#8] = true
    ∧ met 0xFFFB [0x30#8, 0x00#8, 0x01#8, 0x02#8] = true
    ∧ metAtTop [0x30#8] = true
    ∧ met 0x8000 [0x30#8, 0x04#8] = true
    ∧ metAtTop [0x30#8, 0x00#8] = true
    ∧ met 0x8000 [0x30#8, 0x00#8, 0x04#8] = true
    ∧ metAtTop [0x30#8, 0x00#8, 0x01#8] = true
    ∧ met 0x8000 [0x30#8, 0x00#8, 0x01#8, 0x04#8] = true := by
  decide

theorem witness_CmpEqImmIterationFollowsItsRule :
    met 0x8000 [0x31#8, 0x00#8, 0xFF#8, 0x01#8] = true
    ∧ met 0xFFFB [0x31#8, 0x00#8, 0xFF#8, 0x01#8] = true
    ∧ metAtTop [0x31#8] = true
    ∧ met 0x8000 [0x31#8, 0x04#8] = true
    ∧ metAtTop [0x31#8, 0x00#8] = true
    ∧ metAtTop [0x31#8, 0x00#8, 0xFF#8] = true
    ∧ met 0x8000 [0x31#8, 0x00#8, 0xFF#8, 0x04#8] = true := by
  decide

theorem witness_CmpGtRegIterationFollowsItsRule :
    met 0x8000 [0x32#8, 0x00#8, 0x01#8, 0x02#8] = true
    ∧ met 0xFFFB [0x32#8, 0x00#8, 0x01#8, 0x02#8] = true
    ∧ metAtTop [0x32#8] = true
    ∧ met 0x8000 [0x32#8, 0x04#8] = true
    ∧ metAtTop [0x32#8, 0x00#8] = true
    ∧ met 0x8000 [0x32#8, 0x00#8, 0x04#8] = true
    ∧ metAtTop [0x32#8, 0x00#8, 0x01#8] = true
    ∧ met 0x8000 [0x32#8, 0x00#8, 0x01#8, 0x04#8] = true := by
  decide

theorem witness_CmpLtRegIterationFollowsItsRule :
    met 0x8000 [0x33#8, 0x00#8, 0x01#8, 0x02#8] = true
    ∧ met 0xFFFB [0x33#8, 0x00#8, 0x01#8, 0x02#8] = true
    ∧ metAtTop [0x33#8] = true
    ∧ met 0x8000 [0x33#8, 0x04#8] = true
    ∧ metAtTop [0x33#8, 0x00#8] = true
    ∧ met 0x8000 [0x33#8, 0x00#8, 0x04#8] = true
    ∧ metAtTop [0x33#8, 0x00#8, 0x01#8] = true
    ∧ met 0x8000 [0x33#8, 0x00#8, 0x01#8, 0x04#8] = true := by
  decide

theorem witness_JumpIfIterationFollowsItsRule :
    met 0x8000 [0x40#8, 0x01#8, 0x12#8, 0x34#8] = true
    ∧ met 0xFFFB [0x40#8, 0x01#8, 0x12#8, 0x34#8] = true
    ∧ metAtTop [0x40#8] = true
    ∧ met 0x8000 [0x40#8, 0x04#8] = true
    ∧ metAtTop [0x40#8, 0x01#8] = true
    ∧ metAtTop [0x40#8, 0x01#8, 0x12#8] = true := by
  decide

theorem witness_IncIterationFollowsItsRule :
    met 0x8000 [0x50#8, 0x03#8] = true
    ∧ met 0xFFFD [0x50#8, 0x03#8] = true
    ∧ metAtTop [0x50#8] = true
    ∧ met 0x8000 [0x50#8, 0x04#8] = true := by
  decide

theorem witness_DecIterationFollowsItsRule :
    met 0x8000 [0x51#8, 0x00#8] = true
    ∧ met 0xFFFD [0x51#8, 0x00#8] = true
    ∧ metAtTop [0x51#8] = true
    ∧ met 0x8000 [0x51#8, 0x04#8] = true := by
  decide

theorem witness_AddRegIterationFollowsItsRule :
    met 0x8000 [0x52#8, 0x00#8, 0x01#8, 0x02#8] = true
    ∧ met 0xFFFB [0x52#8, 0x00#8, 0x01#8, 0x02#8] = true
    ∧ metAtTop [0x52#8] = true
    ∧ met 0x8000 [0x52#8, 0x04#8] = true
    ∧ metAtTop [0x52#8, 0x00#8] = true
    ∧ met 0x8000 [0x52#8, 0x00#8, 0x04#8] = true
    ∧ metAtTop [0x52#8, 0x00#8, 0x01#8] = true
    ∧ met 0x8000 [0x52#8, 0x00#8, 0x01#8, 0x04#8] = true := by
  decide

theorem witness_SubRegIterationFollowsItsRule :
    met 0x8000 [0x53#8, 0x00#8, 0x01#8, 0x02#8] = true
    ∧ met 0xFFFB [0x53#8, 0x00#8, 0x01#8, 0x02#8] = true
    ∧ metAtTop [0x53#8] = true
    ∧ met 0x8000 [0x53#8, 0x04#8] = true
    ∧ metAtTop [0x53#8, 0x00#8] = true
    ∧ met 0x8000 [0x53#8, 0x00#8, 0x04#8] = true
    ∧ metAtTop [0x53#8, 0x00#8, 0x01#8] = true
    ∧ met 0x8000 [0x53#8, 0x00#8, 0x01#8, 0x04#8] = true := by
  decide

theorem witness_AddImmIterationFollowsItsRule :
    met 0x8000 [0x54#8, 0x00#8, 0x05#8, 0x01#8] = true
    ∧ met 0xFFFB [0x54#8, 0x00#8, 0x05#8, 0x01#8] = true
    ∧ metAtTop [0x54#8] = true
    ∧ met 0x8000 [0x54#8, 0x04#8] = true
    ∧ metAtTop [0x54#8, 0x00#8] = true
    ∧ metAtTop [0x54#8, 0x00#8, 0x05#8] = true
    ∧ met 0x8000 [0x54#8, 0x00#8, 0x05#8, 0x04#8] = true := by
  decide

theorem witness_SubImmIterationFollowsItsRule :
    met 0x8000 [0x55#8, 0x02#8, 0x04#8, 0x03#8] = true
    ∧ met 0xFFFB [0x55#8, 0x02#8, 0x04#8, 0x03#8] = true
    ∧ metAtTop [0x55#8] = true
    ∧ met 0x8000 [0x55#8, 0x04#8] = true
    ∧ metAtTop [0x55#8, 0x02#8] = true
    ∧ metAtTop [0x55#8, 0x02#8, 0x04#8] = true
    ∧ met 0x8000 [0x55#8, 0x02#8, 0x04#8, 0x04#8] = true := by
  decide

theorem witness_JumpIf_taken_and_not_taken :
    (stAt 0x8000 [] ⟨0x01#8, 0x00#8, 0x02#8, 0xFF#8⟩).readReg .r0 = 0x01#8
    ∧ (stAt 0x8000 [] ⟨0x01#8, 0x00#8, 0x02#8, 0xFF#8⟩).readReg .r3 ≠ 0x01#8 := by decide

theorem witness_EachInstructionHasExactlyOneEncoding :
    decode [0x50#8, 0x03#8, 0xFF#8] = .ok (.inc .r3, [0xFF#8]) := by decide

theorem witness_DecoderAcceptsExactlyTheTableWords :
    (⟨.inc, 2, 0x5000, 0xFF00, 0x00FC⟩ : TableRow) ∈ opcodeTable
    ∧ (⟨.inc, 2, 0x5000, 0xFF00, 0x00FC⟩ : TableRow).accepts [0x50#8, 0x03#8] = true
    ∧ (⟨.inc, 2, 0x5000, 0xFF00, 0x00FC⟩ : TableRow).accepts [0x50#8, 0x04#8] = false := by decide

theorem witness_OpcodeByteAloneFixesTheLength :
    decode (0x50#8 :: [0x03#8]) = .ok (.inc .r3, [])
    ∧ decode (0x50#8 :: [0x00#8, 0x07#8]) = .ok (.inc .r0, [0x07#8]) := by decide

theorem witness_RegisterIndexBytesAreValidUpToThree :
    3 < (0x04#8 : Byte).toNat ∧ 3 < (0xFF#8 : Byte).toNat := by decide

theorem witness_LoadMemoryCompletesAtEveryCell :
    (0xFFFE#16 : Addr) ≠ 0xFFFF#16 ∧ (0x0000#16 : Addr) ≠ 0xFFFF#16 := by decide

theorem witness_StoreMemoryCompletesAtEveryCell :
    (0xFFFE#16 : Addr) ≠ 0xFFFF#16 ∧ (0x0000#16 : Addr) ≠ 0xFFFF#16 := by decide

theorem witness_StoredByteIsFetched :
    (0xFFFE#16 : Addr) ≠ 0xFFFF#16 ∧ (0xFFFE#16 : Addr) ≠ 0x0100#16
    ∧ (0x0100#16 : Addr) ≠ 0xFFFF#16 := by decide

theorem witness_StepRunsTheDecodedInstruction :
    (stAt 0x8000 [0x50#8, 0x03#8]).Fetches
    ∧ decode (stAt 0x8000 [0x50#8, 0x03#8]).hostPhase.window
        = .ok (.inc .r3, [0x00#8, 0x00#8]) := by decide

theorem witness_EveryIterationEndsInOneOfThreeOutcomes : (stAt 0x8000 [0xFF#8]).Fetches := by decide

theorem witness_FailedIterationWritesNothing :
    (stAt 0x8000 [0x60#8]).Fetches
    ∧ statusAfter 0x8000 [0x60#8] = some (.failed .unknownOpcode) := by decide

theorem witness_RegistersAreWrittenOnlyByTheirInstructions :
    (stAt 0x8000 [0xFF#8]).Fetches
    ∧ decode (stAt 0x8000 [0xFF#8]).hostPhase.window = .ok (.nop, [0x00#8, 0x00#8, 0x00#8])
    ∧ (nextOf (step (stAt 0x8000 [0xFF#8]))).isSome = true
    ∧ Instr.nop.destination = none
    ∧ (stAt 0x8000 [0x50#8, 0x03#8]).Fetches
    ∧ decode (stAt 0x8000 [0x50#8, 0x03#8]).hostPhase.window = .ok (.inc .r3, [0x00#8, 0x00#8])
    ∧ (nextOf (step (stAt 0x8000 [0x50#8, 0x03#8]))).isSome = true
    ∧ (Instr.inc .r3).destination = some .r3
    ∧ (stAt 0x8000 [0x12#8, 0x03#8, 0xFF#8, 0xFF#8]).Fetches
    ∧ decode (stAt 0x8000 [0x12#8, 0x03#8, 0xFF#8, 0xFF#8]).hostPhase.window
        = .ok (.loadMemory .r3 0xFFFF#16, [])
    ∧ statusAfter 0x8000 [0x12#8, 0x03#8, 0xFF#8, 0xFF#8] = some (.failed .addressOutOfRange)
    ∧ (stAt 0x8000 [0x60#8]).Fetches
    ∧ decode (stAt 0x8000 [0x60#8]).hostPhase.window = .error .unknownOpcode
    ∧ statusAfter 0x8000 [0x60#8] = some (.failed .unknownOpcode)
    ∧ (nextOf (step { State.reset with calls := [.run] })).isSome = true
    ∧ (nextOf (step { stAt 0x8000 [0xFF#8] with adapter := [⟨none, true⟩] })).isSome = true := by
  decide

theorem witness_MemoryIsWrittenOnlyByItsThreeAgents :
    ((nextOf (step { stAt 0x8000 [0xFF#8] with adapter := [⟨some 0x41#8, false⟩] })).map
      (·.mem.get 0x0100)) = some 0x41#8
    ∧ (stAt 0x8000 [0xFF#8]).mem.get 0x0100 = 0x00#8
    ∧ ((nextOf (step (stAt 0x8000 [0x20#8, 0x02#8, 0x00#8, 0x00#8]
        ⟨0x99#8, 0x00#8, 0x00#8, 0x00#8⟩))).map (·.mem.get 0x0200)) = some 0x99#8
    ∧ ((nextOf (step { State.reset with calls := [.load [0xFF#8]] })).map (·.mem.get 0x8000))
        = some 0xFF#8 := by decide

theorem witness_PcChangesOnlyByFetchJumpAndLoad :
    (stAt 0x8000 [0xFF#8]).Fetches ∧ statusAfter 0x8000 [0xFF#8] = some .running
    ∧ ((nextOf (step { stAt 0x8000 [0xFF#8] with adapter := [⟨none, true⟩] })).map (·.pc))
        = some 0x8000#16
    ∧ ((nextOf (step { State.reset with calls := [.load []] })).map (·.pc)) = some 0x8000#16 := by
  decide

theorem witness_HostPhaseWritesOnlyTheInputByte :
    (State.answer { State.reset with adapter := [⟨some 0x41#8, false⟩] }).poll = some 0x41#8
    ∧ (State.answer { State.reset with adapter := [⟨none, false⟩] }).poll = none := by decide

theorem witness_EveryIterationMakesOneHostPhase : (stAt 0x8000 [0xFF#8]).status = .running := by
  decide

theorem witness_CancellationEndsTheRunBeforeTheFetch :
    State.status { stAt 0x8000 [0xFF#8] with adapter := [⟨none, true⟩] } = .running
    ∧ (State.answer { stAt 0x8000 [0xFF#8] with adapter := [⟨none, true⟩] }).cancel = true := by
  decide

theorem witness_IllegalOpcodesFailTheIteration :
    met 0x8000 [0x01#8] = true ∧ met 0x8000 [0x13#8] = true ∧ met 0x8000 [0x2F#8] = true
    ∧ met 0x8000 [0x34#8] = true ∧ met 0x8000 [0x4F#8] = true ∧ met 0xFFFE [0xFE#8] = true := by
  decide

theorem witness_FetchAtTheMissingCellFails :
    (stAt 0xFFFF []).Fetches ∧ (stAt 0xFFFF []).pc = 0xFFFF#16 := by decide

theorem witness_StoppedCoreMakesNoMoveOfItsOwn :
    State.reset.status ≠ .running ∧ State.reset.calls = []
    ∧ State.status { State.reset with status := .failed .unknownOpcode, calls := [.run] }
        = .failed .unknownOpcode := by decide

theorem witness_RunResumesAfterHaltAndIsRefusedAfterFailure :
    State.calls { State.reset with calls := [.run] } = [.run]
    ∧ State.status { State.reset with calls := [.run] } = .idle
    ∧ State.calls { State.reset with status := .halted, calls := [.run] } = [.run]
    ∧ State.status { State.reset with status := .halted, calls := [.run] } = .halted
    ∧ State.calls { State.reset with status := .failed .unknownOpcode, calls := [.run] } = [.run]
    ∧ State.status { State.reset with status := .failed .unknownOpcode, calls := [.run] }
        = .failed .unknownOpcode := by decide

/-- An idle core after an accepted load of one NOP, as `load` leaves it, with `run` as the next call. -/
def loadedIdle : State :=
  { State.reset with
    pc := 0x8000#16, mem := [(0x8000, 0xFF#8)], loadResult := .accepted, calls := [.run] }

theorem witness_run_after_an_accepted_load :
    nextOf (step { State.reset with calls := [.load [0xFF#8], .run] }) = some loadedIdle
    ∧ loadedIdle.Inv ∧ loadedIdle.status = .idle ∧ loadedIdle.loadResult = .accepted
    ∧ loadedIdle.calls = [.run] :=
  ⟨by decide, ⟨by decide, fun _ h => (by cases h), by decide, by decide, fun _ => by decide⟩,
    rfl, rfl, rfl⟩

theorem witness_LoadCopiesTheProgramVerbatim :
    State.reset.status = .idle ∧ State.reset.loadResult = .notCalled
    ∧ State.calls { State.reset with calls := [.load (List.replicate 32767 0xFF#8)] }
        = .load (List.replicate 32767 0xFF#8) :: []
    ∧ (List.replicate 32767 (0xFF#8 : Byte)).length ≤ 32767 :=
  ⟨rfl, rfl, rfl, by simp only [List.length_replicate]; decide⟩

theorem witness_OversizedProgramIsRejected :
    State.reset.status = .idle ∧ State.reset.loadResult = .notCalled
    ∧ State.calls { State.reset with calls := [.load (List.replicate 32768 0xFF#8)] }
        = .load (List.replicate 32768 0xFF#8) :: []
    ∧ 32767 < (List.replicate 32768 (0xFF#8 : Byte)).length :=
  ⟨rfl, rfl, rfl, by simp only [List.length_replicate]; decide⟩

theorem witness_SecondLoadIsRefused :
    State.calls { State.reset with loadResult := .accepted, calls := [.load []] } = .load [] :: []
    ∧ State.status { State.reset with loadResult := .accepted, calls := [.load []] } = .idle
    ∧ State.loadResult { State.reset with loadResult := .accepted, calls := [.load []] }
        ≠ .notCalled
    ∧ State.status { State.reset with status := .halted, calls := [.load []] } = .halted := by decide

theorem witness_EveryStepKeepsTheInvariant :
    State.Inv { State.reset with calls := [.run] }
    ∧ (nextOf (step { State.reset with calls := [.run] })).isSome = true :=
  ⟨⟨rfl, fun _ h => (by cases h), by decide, by decide, fun _ => by decide⟩, by decide⟩

/-- A core at `pc` with JUMP_IF r0 to `pc` itself there and 0x01 in r0. -/
def selfJump (pc : Nat) : State :=
  stAt pc [0x40#8, 0x00#8, addrHi (BitVec.ofNat 16 pc), addrLo (BitVec.ofNat 16 pc)]
    ⟨0x01#8, 0x00#8, 0x00#8, 0x00#8⟩

/-- One state on each side of the cell 0x0100, the lower one just below it. -/
theorem witness_SelfJumpRepeatsUntilCancelled :
    ∀ s ∈ [selfJump 0x00FC, selfJump 0x0101, selfJump 0xFFFB],
      s.status = .running ∧ 1 ≤ s.adapter.length ∧ (∀ a ∈ s.adapter.take 1, a.cancel = false)
      ∧ (s.pc.toNat + 4 ≤ 0x0100 ∨ 0x0100 < s.pc.toNat) ∧ s.readReg .r0 = 0x01#8
      ∧ bytesAt s.mem s.pc.toNat [0x40#8, Reg.r0.byte, addrHi s.pc, addrLo s.pc] = true := by
  decide

theorem witness_ReadReturnsTheLatestWrite :
    memWrite [] 0xFFFE#16 0x07#8 = .ok [(0xFFFE, 0x07#8)] ∧ (0x0000#16 : Addr) ≠ 0xFFFE#16 := by decide

theorem witness_OnlyTheMissingCellFails :
    0xFFFE < (0xFFFF#16 : Addr).toNat ∧ (0xFFFE#16 : Addr).toNat ≤ 0xFFFE := by decide

end Sys2Proof.Tests
end

/-! The proofs of the family 10_state.md: what a step leaves of the registers, the memory and `pc`. -/

namespace Sys2Proof.Proofs

open Sys2Proof.Machine

/-! The decoder read backwards -/

/-- The operand bytes of an instruction are exactly what its opcode's format reads (R82, R83). -/
theorem decodeOperands_eq_ok_iff {o : Opcode} {bs rest : List Byte} {i : Instr} :
    decodeOperands o bs = .ok (i, rest) ↔ i.opcode = o ∧ bs = i.operandBytes ++ rest := by
  constructor
  · intro h
    cases o with
    | halt | nop =>
      cases h
      exact ⟨rfl, rfl⟩
    | loadImmediate =>
      obtain ⟨_, _, rfl, rfl⟩ := fetchRegImm_eq_ok.mp h
      exact ⟨rfl, rfl⟩
    | loadRegister =>
      obtain ⟨_, _, rfl, rfl⟩ := fetchTwoRegs_eq_ok.mp h
      exact ⟨rfl, rfl⟩
    | loadMemory | jumpIf =>
      obtain ⟨_, _, rfl, rfl⟩ := fetchRegAddr_eq_ok.mp h
      exact ⟨rfl, rfl⟩
    | storeMemory =>
      obtain ⟨_, _, rfl, rfl⟩ := fetchAddrReg_eq_ok.mp h
      exact ⟨rfl, rfl⟩
    | cmpEqReg | cmpGtReg | cmpLtReg | addReg | subReg =>
      obtain ⟨_, _, _, rfl, rfl⟩ := fetchThreeRegs_eq_ok.mp h
      exact ⟨rfl, rfl⟩
    | cmpEqImm | addImm | subImm =>
      obtain ⟨_, _, _, rfl, rfl⟩ := fetchRegImmReg_eq_ok.mp h
      exact ⟨rfl, rfl⟩
    | inc | dec =>
      obtain ⟨_, rfl, rfl⟩ := fetchOneReg_eq_ok.mp h
      exact ⟨rfl, rfl⟩
  · rintro ⟨rfl, rfl⟩
    cases i with
    | halt | nop => rfl
    | loadImmediate d v => exact fetchRegImm_eq_ok.mpr ⟨d, v, rfl, rfl⟩
    | loadRegister d src => exact fetchTwoRegs_eq_ok.mpr ⟨d, src, rfl, rfl⟩
    | loadMemory r A | jumpIf r A => exact fetchRegAddr_eq_ok.mpr ⟨r, A, rfl, rfl⟩
    | storeMemory A src => exact fetchAddrReg_eq_ok.mpr ⟨A, src, rfl, rfl⟩
    | cmpEqReg a b d | cmpGtReg a b d | cmpLtReg a b d | addReg a b d | subReg a b d =>
      exact fetchThreeRegs_eq_ok.mpr ⟨a, b, d, rfl, rfl⟩
    | cmpEqImm a v d | addImm a v d | subImm a v d =>
      exact fetchRegImmReg_eq_ok.mpr ⟨a, v, d, rfl, rfl⟩
    | inc r | dec r => exact fetchOneReg_eq_ok.mpr ⟨r, rfl, rfl⟩

/-- The decoder answers an instruction exactly on its encoding (R91, R95). -/
theorem decode_eq_ok_iff {bs rest : List Byte} {i : Instr} :
    decode bs = .ok (i, rest) ↔ bs = encode i ++ rest := by
  constructor
  · intro h
    cases bs with
    | nil => cases h
    | cons b bs =>
      cases ho : opcodeOf b with
      | none =>
        rw [decode_unknown ho] at h
        cases h
      | some o =>
        obtain rfl := (opcodeOf_eq_some_iff b o).mp ho
        rw [decode_code] at h
        obtain ⟨rfl, rfl⟩ := decodeOperands_eq_ok_iff.mp h
        rfl
  · rintro rfl
    rw [encode, List.cons_append, decode_code]
    exact decodeOperands_eq_ok_iff.mpr ⟨rfl, rfl⟩

/-- An iteration whose window decodes to an instruction sees the encoding of that instruction. -/
theorem sees_encode_of_decode {s : State} {i : Instr} {rest : List Byte}
    (hd : decode s.hostPhase.window = .ok (i, rest)) : s.Sees (encode i) := by
  have hw : s.Sees (encode i ++ rest) := decode_eq_ok_iff.mp hd ▸ sees_window s
  exact (bytesAt_append.mp hw).1

/-! What a meaning leaves of the registers, the memory and `pc` -/

/-- A meaning changes no register, or only the destination register and then not the status. -/
theorem exec_regs {i : Instr} {s t : State} (h : exec i s = .next t) :
    RegsSame s t ∨ t.status = s.status ∧ ∃ d, i.destination = some d ∧ RegsSameBut d s t := by
  rcases exec_cases i s with
    ⟨d, v, e, hd⟩ | ⟨A, src, _, _, e⟩ | ⟨c, T, _, _, e⟩ | ⟨_, e⟩ | ⟨_, e⟩ | ⟨_, e⟩
    <;> cases e.symm.trans h
  · exact .inr ⟨rfl, d, hd, (writeReg_only s d v).1⟩
  all_goals exact .inl fun _ => rfl

/-- A meaning changes no cell, unless it is a STORE_MEMORY, which changes only the cell it names. -/
theorem exec_mem {i : Instr} {s t : State} (h : exec i s = .next t) :
    MemSame s t ∨ ∃ A src, i = .storeMemory A src ∧ MemSameBut A.toNat s t := by
  rcases exec_cases i s with
    ⟨d, v, e, _⟩ | ⟨A, src, hi, _, e⟩ | ⟨c, T, _, _, e⟩ | ⟨_, e⟩ | ⟨_, e⟩ | ⟨_, e⟩
    <;> cases e.symm.trans h
  case inr.inl => exact .inr ⟨A, src, hi, fun _ hb => Memory.get_set_other _ _ hb⟩
  all_goals exact .inl fun _ => rfl

/-- A meaning that does not fail leaves `pc`, unless it is a JUMP_IF to the new `pc`. -/
theorem exec_pc {i : Instr} {s t : State} (h : exec i s = .next t) (ht : t.Safe) :
    t.pc = s.pc ∨ ∃ c, i = .jumpIf c t.pc := by
  rcases exec_cases i s with
    ⟨d, v, e, _⟩ | ⟨A, src, _, _, e⟩ | ⟨c, T, hi, _, e⟩ | ⟨_, e⟩ | ⟨_, e⟩ | ⟨_, e⟩
    <;> cases e.symm.trans h
  case inr.inr.inl => exact .inr ⟨c, hi⟩
  case inr.inr.inr.inr.inr => exact absurd rfl (ht .addressOutOfRange)
  all_goals exact .inl rfl

/-! What a step leaves of the registers -/

/-- An iteration that runs an instruction changes no register, or only the destination register and
then it does not end the run. -/
theorem step_regs_of_decode_ok {s t : State} {i : Instr} {rest : List Byte} (hf : s.Fetches)
    (hd : decode s.hostPhase.window = .ok (i, rest)) (h : step s = .next t) :
    RegsSame s t ∨ t.status = .running ∧ ∃ d, i.destination = some d ∧ RegsSameBut d s t := by
  rw [step_of_decode_ok hf hd] at h
  have hregs := exec_regs h
  rw [State.advance_status, State.hostPhase_status, hf.1] at hregs
  exact hregs

theorem regsSame_of_decode_error {s t : State} {e : DecodeError} (hf : s.Fetches)
    (hd : decode s.hostPhase.window = .error e) (h : step s = .next t) : RegsSame s t := by
  cases (step_of_decode_error hf hd).symm.trans h
  exact fun _ => rfl

theorem regsSame_of_cancelled {s t : State} (hr : s.status = .running)
    (hc : s.answer.cancel = true) (h : step s = .next t) : RegsSame s t := by
  cases (step_cancelled hr hc).symm.trans h
  exact fun _ => rfl

theorem regsSame_of_not_running {s t : State} (hr : s.status ≠ .running) (h : step s = .next t) :
    RegsSame s t := by
  rw [step_not_running hr] at h
  rcases hostCall_cases h with ⟨_, _, _, _, _, _, rfl⟩ | ⟨_, _, _, _, _, _, rfl⟩ | ⟨_, _, _, rfl⟩
    <;> exact fun _ => rfl

/-- A failed iteration changes no register, whether it fails in decoding or in executing (R116). -/
theorem regsSame_of_failed {s t : State} {k : ErrorKind} (hf : s.Fetches) (h : step s = .next t)
    (ht : t.status = .failed k) : RegsSame s t := by
  cases hd : decode s.hostPhase.window with
  | error e => exact regsSame_of_decode_error hf hd h
  | ok p =>
    rcases step_regs_of_decode_ok hf hd h with hsame | ⟨hrun, _⟩
    · exact hsame
    · rw [ht] at hrun
      cases hrun

/-- Settles O34, from `exec_regs` for the iterations and `hostCall_cases` for the host's calls. -/
theorem registersAreWrittenOnlyByTheirInstructions :
    Obligations.RegistersAreWrittenOnlyByTheirInstructions := by
  refine ⟨destination_eq_none_iff, fun s t i rest hf hd h => ?_,
    fun _ _ _ hf h ht => regsSame_of_failed hf h ht,
    fun _ _ _ hf hd h => regsSame_of_decode_error hf hd h, fun s t hs h => ?_⟩
  · rcases step_regs_of_decode_ok hf hd h with hsame | ⟨_, d, hdest, hbut⟩
    · exact ⟨fun _ => hsame, fun _ _ r _ => hsame r⟩
    · rw [hdest]
      refine ⟨fun hnone => (nomatch hnone), fun d' hd' => ?_⟩
      cases hd'
      exact hbut
  · by_cases hr : s.status = .running
    · exact regsSame_of_cancelled hr (hs.resolve_left (not_not_intro hr)) h
    · exact regsSame_of_not_running hr h

/-! What a step leaves of the memory -/

/-- The host phase leaves every cell but 0x0100 (R103). -/
theorem hostPhase_memSameBut (s : State) : MemSameBut 0x0100 s s.hostPhase :=
  fun _ hb => Memory.get_set_other _ _ hb

/-- An iteration that changes a cell after its host phase fetched a STORE_MEMORY of that cell. -/
theorem sees_store_of_cell_changed {s t : State} {a : Nat} (hr : s.status = .running)
    (h : step s = .next t) (hne : t.mem.get a ≠ s.hostPhase.mem.get a) :
    s.Fetches ∧ ∃ (hi lo : Byte) (src : Reg), s.Sees [0x20#8, hi, lo, src.byte]
      ∧ a = hi.toNat * 256 + lo.toNat := by
  rcases step_running_cases hr with ⟨_, e⟩ | ⟨_, _, _, e⟩ | ⟨hc, i, rest, hd, e⟩
  · cases e.symm.trans h
    exact absurd rfl hne
  · cases e.symm.trans h
    exact absurd rfl hne
  · rcases exec_mem (e.symm.trans h) with hsame | ⟨A, src, rfl, hbut⟩
    · exact absurd (hsame a) hne
    · have ha : a = A.toNat := Classical.not_not.mp fun hA => hne (hbut a hA)
      refine ⟨⟨hr, hc⟩, addrHi A, addrLo A, src, sees_encode_of_decode hd, ?_⟩
      rw [← joinAddr_toNat, joinAddr_parts, ha]

/-- A host call that changes a cell is a load on an idle core whose range has the cell. -/
theorem load_of_cell_changed {s t : State} {a : Nat} (h : hostCall s = .next t)
    (hne : t.mem.get a ≠ s.mem.get a) :
    s.status = .idle ∧ ∃ (program : List Byte) (rest : List HostCall),
      s.calls = .load program :: rest ∧ 0x8000 ≤ a ∧ a < 0x8000 + program.length := by
  rcases hostCall_cases h with
    ⟨program, rest, hc, hs, _, _, rfl⟩ | ⟨_, _, _, _, _, _, rfl⟩ | ⟨_, _, _, rfl⟩
  · have hrange : ¬ (a < 0x8000 ∨ 0x8000 + program.length ≤ a) :=
      fun hout => hne (Memory.get_setAll_outside program s.mem 0x8000 a hout)
    exact ⟨hs, program, rest, hc, by omega, by omega⟩
  · exact absurd rfl hne
  · exact absurd rfl hne

/-- Settles O35: a changed cell is the one the host phase writes, or the iteration's instruction or
the host's call changed it. -/
theorem memoryIsWrittenOnlyByItsThreeAgents : Obligations.MemoryIsWrittenOnlyByItsThreeAgents := by
  intro s t a h hne
  by_cases hr : s.status = .running
  · by_cases ha : a = 0x0100
    · exact .inl ⟨hr, ha⟩
    · rw [← hostPhase_memSameBut s a ha] at hne
      exact .inr (.inl (sees_store_of_cell_changed hr h hne))
  · rw [step_not_running hr] at h
    exact .inr (.inr (load_of_cell_changed h hne))

/-! What a step leaves of `pc` -/

/-- Settles O36: `pc` is advanced over the encoding that was seen, and then `exec_pc` says what the
instruction does with it; the host's calls are read off `hostCall_cases`. -/
theorem pcChangesOnlyByFetchJumpAndLoad : Obligations.PcChangesOnlyByFetchJumpAndLoad := by
  refine ⟨fun s t i rest hf hd h ht => ?_, fun s t hr hc h => ?_, fun s t hr h => ?_⟩
  · rw [step_of_decode_ok hf hd] at h
    have hadv := advance_pc_toNat (sees_encode_of_decode hd) (encode_length i)
    rcases exec_pc h ht with hpc | hjump
    · exact .inl (hpc ▸ hadv)
    · exact .inr hjump
  · cases (step_cancelled hr hc).symm.trans h
    rfl
  · rw [step_not_running hr] at h
    rcases hostCall_cases h with
      ⟨program, rest, hc, _, _, _, rfl⟩ | ⟨_, _, _, _, _, _, rfl⟩ | ⟨_, _, _, rfl⟩
    · exact .inr ⟨rfl, program, rest, hc⟩
    · exact .inl rfl
    · exact .inl rfl

/-! The run status and the host's call `run` -/

theorem hostCall_of_no_calls {s : State} (h : s.calls = []) : hostCall s = .fault .awaitingHost := by
  simp [hostCall, h]

theorem hostCall_of_run {s : State} {rest : List HostCall} (h : s.calls = .run :: rest) :
    hostCall s = performRun { s with calls := rest } := by
  simp [hostCall, h]

/-- `run` on an idle or a halted core only sets the status (R205, R208). -/
theorem performRun_of_idle_or_halted {s : State} (h : s.status = .idle ∨ s.status = .halted) :
    performRun s = .next { s with status := .running } := by
  rcases h with h | h <;> simp [performRun, h]

theorem performRun_of_failed {s : State} {k : ErrorKind} (h : s.status = .failed k) :
    performRun s = .refused .runAfterFailed := by
  simp [performRun, h]

/-- Settles O42: a host call that is answered was made on an idle or a halted core. -/
theorem stoppedCoreMakesNoMoveOfItsOwn : Obligations.StoppedCoreMakesNoMoveOfItsOwn := by
  refine ⟨fun s hr hc => ?_, fun s t k hk h => ?_⟩
  · rw [step_not_running hr, hostCall_of_no_calls hc]
  · rw [step_not_running (by simp [hk])] at h
    have hstopped : s.status = .idle ∨ s.status = .halted := by
      rcases hostCall_cases h with
        ⟨_, _, _, hi, _⟩ | ⟨_, _, _, hi, _⟩ | ⟨_, _, hih, _⟩
      · exact .inl hi
      · exact .inl hi
      · exact hih
    simp [hk] at hstopped

/-- Settles O43, with the entry point taken from the invariant. -/
theorem runResumesAfterHaltAndIsRefusedAfterFailure :
    Obligations.RunResumesAfterHaltAndIsRefusedAfterFailure := by
  intro s rest hc
  refine ⟨fun hs => ?_, fun k hk => ?_⟩
  · have hr : s.status ≠ .running := by rcases hs with h | h <;> simp [h]
    have hstep : step s = .next { s with calls := rest, status := .running } := by
      rw [step_not_running hr, hostCall_of_run hc]
      exact performRun_of_idle_or_halted hs
    refine ⟨_, hstep, rfl, rfl, fun _ => rfl, fun _ => rfl, rfl, rfl, rfl, rfl, rfl,
      fun hinv hidle hload => ?_⟩
    obtain ⟨_, _, hpc⟩ := hinv.entryPoint hidle
    rw [hpc, if_pos hload]
    rfl
  · rw [step_not_running (by simp [hk]), hostCall_of_run hc]
    exact performRun_of_failed hk

/-- Settles O55, by the laws of the register file. -/
theorem registersAreFourIndependentCells : Obligations.RegistersAreFourIndependentCells :=
  fun s r v => ⟨State.writeReg_readReg_same s r v, (writeReg_only s r v).1, rfl, rfl, rfl⟩

/-- Settles O60: each code is an entry of R45's table. -/
theorem statusAndKindCodes : Obligations.StatusAndKindCodes :=
  ⟨rfl, rfl, rfl, fun _ => rfl, rfl, rfl, rfl, rfl, rfl, rfl, rfl, rfl⟩

end Sys2Proof.Proofs

/-! The proofs of the family 20_memory.md: the access primitives, a stored byte as the next iteration
fetches it, and the invariant of the machine. -/

namespace Sys2Proof.Proofs

open Sys2Proof.Machine

/-! The access primitives -/

theorem memRead_of_lt {a : Addr} (h : a.toNat < 65535) (m : Memory) :
    memRead m a = .ok (m.get a.toNat) := if_pos h

theorem memWrite_of_lt {a : Addr} (h : a.toNat < 65535) (m : Memory) (v : Byte) :
    memWrite m a v = .ok (m.set a.toNat v) := if_pos h

/-- A read depends only on the cell it names: whether it fails is fixed by the address alone. -/
theorem memRead_congr {m n : Memory} {a : Addr} (h : m.get a.toNat = n.get a.toNat) :
    memRead m a = memRead n a := by
  rw [memRead, memRead, h]

theorem addr_lt_of_ne {A : Addr} (h : A ≠ 0xFFFF#16) : A.toNat < 65535 :=
  (addr_lt_or_eq A).resolve_right fun e => h (BitVec.eq_of_toNat_eq e)

/-- Settles O56: a write that succeeds is a `Memory.set`, whose laws say what each cell reads. -/
theorem readReturnsTheLatestWrite : Obligations.ReadReturnsTheLatestWrite := by
  intro m m' a v h
  rcases memWrite_cases m a v with ⟨ha, e⟩ | ⟨_, e⟩
  · cases e.symm.trans h
    refine ⟨?_, fun b hb => memRead_congr (Memory.get_set_other m v ?_)⟩
    · rw [memRead_of_lt ha, Memory.get_set_same]
    · exact fun hab => hb (BitVec.eq_of_toNat_eq hab)
  · cases e.symm.trans h

/-- Settles O57: 0xFFFF is the one address above 0xFFFE. -/
theorem onlyTheMissingCellFails : Obligations.OnlyTheMissingCellFails := by
  intro m a v
  refine ⟨fun h => ⟨if_neg (Nat.not_lt.mpr h), if_neg (Nat.not_lt.mpr h)⟩, fun h => ?_⟩
  have ha : a.toNat < 65535 := by omega
  exact ⟨memRead_of_lt ha m, m.set a.toNat v, memWrite_of_lt ha m v,
    Memory.get_set_same m _ v, fun _ hb => Memory.get_set_other m v hb⟩

/-! A stored byte as the next iteration fetches it -/

/-- An iteration sees a single byte when the cell at its `pc` exists and holds it after the host
phase. -/
theorem sees_singleton {s : State} {b : Byte} (hpc : s.pc.toNat < 65535)
    (hb : s.hostPhase.mem.get s.pc.toNat = b) : s.Sees [b] :=
  bytesAt_cons.mpr ⟨hpc, hb, rfl⟩

/-- Settles O53: the host phase leaves the stored byte, unless it is at the cell the host phase
writes (R60, R103). -/
theorem storedByteIsFetched : Obligations.StoredByteIsFetched := by
  intro A src s hA
  have hlt := addr_lt_of_ne hA
  refine ⟨_, commitStore_of_lt hlt _ s, fun hne => sees_singleton hlt ?_, ?_⟩
  · have hinput : A.toNat ≠ 0x0100 := fun e => hne (BitVec.eq_of_toNat_eq e)
    exact (hostPhase_memSameBut _ _ hinput).trans (Memory.get_set_same s.mem A.toNat _)
  · rintro rfl
    exact sees_singleton hlt (Memory.get_set_same _ Config.inputAddr _)

/-! The invariant of the machine -/

/-- Once a run has begun, the invariant rests only on the memory, the status and what has been
rendered. -/
theorem inv_of_not_idle {s t : State} (hs : s.Inv) (hmem : t.mem.wf = true)
    (hrendered : t.rendered = s.rendered) (hphases : t.hostPhases = s.hostPhases)
    (hidle : t.status ≠ .idle) (herror : t.status ≠ .failed .programTooLarge) : t.Inv where
  memCanonical := hmem
  snapshotCanonical := hrendered ▸ hs.snapshotCanonical
  noLoadErrorInRun := herror
  renderedInEveryHostPhase := by rw [hrendered, hphases, hs.renderedInEveryHostPhase]
  entryPoint := fun h => absurd h hidle

theorem raise_inv {s : State} {k : ErrorKind} (hs : s.Inv) (hk : k ≠ .programTooLarge) :
    (s.raise k).Inv :=
  inv_of_not_idle hs hs.memCanonical rfl rfl (by simp) (by simpa using hk)

/-- Decoding never reports ProgramTooLarge (R176). -/
theorem errorKindOf_ne_programTooLarge (e : DecodeError) : errorKindOf e ≠ .programTooLarge := by
  cases e <;> decide

/-- The host phase of an iteration renders a canonical memory and writes to a cell that exists. -/
theorem hostPhase_inv {s : State} (hs : s.Inv) (hr : s.status = .running) : s.hostPhase.Inv where
  memCanonical := Memory.set_wf hs.memCanonical (by decide) _
  snapshotCanonical := by
    rintro _ ⟨⟩
    exact hs.memCanonical
  noLoadErrorInRun := hs.noLoadErrorInRun
  renderedInEveryHostPhase := by simp
  entryPoint := by simp [hr]

/-- During a run a meaning keeps the invariant. -/
theorem exec_inv {i : Instr} {s t : State} (hs : s.Inv) (hr : s.status = .running)
    (h : exec i s = .next t) : t.Inv := by
  have hupdate {u : State} (hmem : u.mem.wf = true) (hrendered : u.rendered = s.rendered)
      (hphases : u.hostPhases = s.hostPhases) (hstatus : u.status = s.status) : u.Inv :=
    inv_of_not_idle hs hmem hrendered hphases (by simp [hstatus, hr]) (by simp [hstatus, hr])
  rcases exec_cases i s with
    ⟨d, v, e, _⟩ | ⟨A, src, _, hA, e⟩ | ⟨c, T, _, _, e⟩ | ⟨_, e⟩ | ⟨_, e⟩ | ⟨_, e⟩
    <;> cases e.symm.trans h
  · exact hupdate hs.memCanonical rfl rfl rfl
  · exact hupdate (Memory.set_wf hs.memCanonical hA _) rfl rfl rfl
  · exact hupdate hs.memCanonical rfl rfl rfl
  · exact hs
  · exact inv_of_not_idle hs hs.memCanonical rfl rfl (by simp) (by simp)
  · exact raise_inv hs (by decide)

/-- An iteration keeps the invariant, whether it is cancelled, fails in decoding or executes. -/
theorem step_running_inv {s t : State} (hs : s.Inv) (hr : s.status = .running)
    (h : step s = .next t) : t.Inv := by
  have hhost := hostPhase_inv hs hr
  rcases step_running_cases hr with ⟨_, e⟩ | ⟨_, err, _, e⟩ | ⟨_, i, _, _, e⟩
  · cases e.symm.trans h
    exact raise_inv hhost (by decide)
  · cases e.symm.trans h
    exact raise_inv hhost (errorKindOf_ne_programTooLarge err)
  · have hadv : (s.hostPhase.advance i).Inv :=
      inv_of_not_idle hhost hhost.memCanonical rfl rfl (by simp [hr]) (by simp [hr])
    exact exec_inv hadv hr (e.symm.trans h)

/-- A host call keeps the invariant: an accepted load sets the entry point 0x8000 and fits below
0xFFFF, a rejected one leaves the entry point 0x0000, and a run ends the idle state. -/
theorem hostCall_inv {s t : State} (hs : s.Inv) (h : hostCall s = .next t) : t.Inv := by
  rcases hostCall_cases h with
    ⟨program, _, _, hidle, _, hlen, rfl⟩ | ⟨_, _, _, hidle, hload, _, rfl⟩ | ⟨_, _, _, rfl⟩
  · obtain ⟨hregs, hphases, _⟩ := hs.entryPoint hidle
    have hfits : Config.loadBase.toNat + program.length ≤ Config.memSize := by
      simp only [Config.loadBase, Config.memSize, Config.maxProgram, BitVec.toNat_ofNat] at hlen ⊢
      omega
    exact { hs with
      memCanonical := Memory.setAll_wf program hs.memCanonical hfits
      entryPoint := fun _ => ⟨hregs, hphases, rfl⟩ }
  · obtain ⟨hregs, hphases, hpc⟩ := hs.entryPoint hidle
    exact { hs with entryPoint := fun _ => ⟨hregs, hphases, by simpa [hload] using hpc⟩ }
  · exact inv_of_not_idle hs hs.memCanonical rfl rfl (by simp) (by simp)

/-- Settles O49: `step_running_inv` for the iterations, `hostCall_inv` for the host's calls. -/
theorem everyStepKeepsTheInvariant : Obligations.EveryStepKeepsTheInvariant := by
  intro s t hs h
  by_cases hr : s.status = .running
  · exact step_running_inv hs hr h
  · exact hostCall_inv hs (step_not_running hr ▸ h)

end Sys2Proof.Proofs

/-! The proofs of the family 30_encoding.md: the decoder and the encoder agree, and both agree with the
opcode table. -/

namespace Sys2Proof.Proofs

open Sys2Proof.Machine

/-! Encoding and decoding -/

/-- Settles O1: the direction of `decode_eq_ok_iff` from the encoding to the instruction. -/
theorem decodeOfEncodeIsTheInstruction : Obligations.DecodeOfEncodeIsTheInstruction :=
  fun _ _ => decode_eq_ok_iff.mpr rfl

/-- Settles O2: the only bytes that decode to an instruction are its encoding. -/
theorem eachInstructionHasExactlyOneEncoding :
    Obligations.EachInstructionHasExactlyOneEncoding := by
  refine ⟨fun i => ⟨encode i, ?_, fun bs h => ?_⟩, fun _ _ _ => decode_eq_ok_iff.mp⟩
  · exact decode_eq_ok_iff.mpr (List.append_nil _).symm
  · exact (decode_eq_ok_iff.mp h).trans (List.append_nil _)

/-- Settles O4: each word is the encoding of its instruction. -/
theorem sampleWordsDecodeAsWritten : Obligations.SampleWordsDecodeAsWritten := by
  refine ⟨?_, ?_, ?_, ?_, ?_, ?_, ?_, ?_, ?_⟩ <;> exact decode_eq_ok_iff.mpr rfl

/-- Settles O6: the four valid bytes are those of the registers. -/
theorem registerIndexBytesAreValidUpToThree : Obligations.RegisterIndexBytesAreValidUpToThree :=
  fun rest => ⟨fetchReg_byte .r0 rest, fetchReg_byte .r1 rest, fetchReg_byte .r2 rest,
    fetchReg_byte .r3 rest, fun _ h => fetchReg_invalid h rest⟩

/-! The formats as kinds of operand bytes -/

/-- The kinds of the operand bytes of each opcode, in address order (R82, R83). -/
def operandKinds : Opcode → List OperandByte
  | .halt | .nop => []
  | .inc | .dec => [.regIndex]
  | .loadImmediate => [.regIndex, .raw]
  | .loadRegister => [.regIndex, .regIndex]
  | .loadMemory | .jumpIf => [.regIndex, .raw, .raw]
  | .storeMemory => [.raw, .raw, .regIndex]
  | .cmpEqReg | .cmpGtReg | .cmpLtReg | .addReg | .subReg => [.regIndex, .regIndex, .regIndex]
  | .cmpEqImm | .addImm | .subImm => [.regIndex, .raw, .regIndex]

/-- The operand bytes are as many as the kinds, and each is valid for its kind. -/
def OperandsLegal (ks : List OperandByte) (bs : List Byte) : Prop :=
  List.Forall₂ (fun k b => k.legal b = true) ks bs

@[simp] theorem operandsLegal_nil_iff {bs : List Byte} : OperandsLegal [] bs ↔ bs = [] :=
  List.forall₂_nil_left_iff

theorem operandsLegal_regIndex_iff {ks : List OperandByte} {bs : List Byte} :
    OperandsLegal (.regIndex :: ks) bs ↔ ∃ (r : Reg) (bs' : List Byte),
      bs = r.byte :: bs' ∧ OperandsLegal ks bs' := by
  constructor
  · rintro (_ | ⟨hb, hbs⟩)
    obtain ⟨r, rfl⟩ := exists_reg_of_legal hb
    exact ⟨r, _, rfl, hbs⟩
  · rintro ⟨r, bs', rfl, hbs⟩
    exact .cons (decide_eq_true r.byte_toNat_le) hbs

theorem operandsLegal_raw_iff {ks : List OperandByte} {bs : List Byte} :
    OperandsLegal (.raw :: ks) bs ↔ ∃ (b : Byte) (bs' : List Byte),
      bs = b :: bs' ∧ OperandsLegal ks bs' := by
  constructor
  · rintro (_ | ⟨_, hbs⟩)
    exact ⟨_, _, rfl, hbs⟩
  · rintro ⟨b, bs', rfl, hbs⟩
    exact .cons rfl hbs

/-- The operand bytes of an instruction are legal for its opcode's format. -/
theorem operandsLegal_operandBytes (i : Instr) :
    OperandsLegal (operandKinds i.opcode) i.operandBytes := by
  have hreg (r : Reg) {ks bs} (h : OperandsLegal ks bs) :
      OperandsLegal (.regIndex :: ks) (r.byte :: bs) := operandsLegal_regIndex_iff.mpr ⟨r, _, rfl, h⟩
  have hraw (b : Byte) {ks bs} (h : OperandsLegal ks bs) :
      OperandsLegal (.raw :: ks) (b :: bs) := operandsLegal_raw_iff.mpr ⟨b, _, rfl, h⟩
  have hnil : OperandsLegal [] [] := .nil
  cases i with
  | halt | nop => exact hnil
  | inc r | dec r => exact hreg r hnil
  | loadImmediate d v => exact hreg d (hraw v hnil)
  | loadRegister d src => exact hreg d (hreg src hnil)
  | loadMemory r A | jumpIf r A => exact hreg r (hraw _ (hraw _ hnil))
  | storeMemory A src => exact hraw _ (hraw _ (hreg src hnil))
  | cmpEqReg a b d | cmpGtReg a b d | cmpLtReg a b d | addReg a b d | subReg a b d =>
    exact hreg a (hreg b (hreg d hnil))
  | cmpEqImm a v d | addImm a v d | subImm a v d => exact hreg a (hraw v (hreg d hnil))

/-- Legal operand bytes decode, by the format that reads them. -/
theorem decodeOperands_of_legal {o : Opcode} {bs : List Byte}
    (h : OperandsLegal (operandKinds o) bs) : ∃ i, decodeOperands o bs = .ok (i, []) := by
  cases o <;> simp only [operandKinds, operandsLegal_regIndex_iff, operandsLegal_raw_iff,
    operandsLegal_nil_iff] at h
  case halt | nop =>
    subst h
    exact ⟨_, rfl⟩
  case inc | dec =>
    obtain ⟨r, _, rfl, rfl⟩ := h
    exact ⟨_, fetchOneReg_eq_ok.mpr ⟨r, rfl, rfl⟩⟩
  case loadImmediate =>
    obtain ⟨d, _, rfl, v, _, rfl, rfl⟩ := h
    exact ⟨_, fetchRegImm_eq_ok.mpr ⟨d, v, rfl, rfl⟩⟩
  case loadRegister =>
    obtain ⟨d, _, rfl, src, _, rfl, rfl⟩ := h
    exact ⟨_, fetchTwoRegs_eq_ok.mpr ⟨d, src, rfl, rfl⟩⟩
  case loadMemory | jumpIf =>
    obtain ⟨r, _, rfl, hi, _, rfl, lo, _, rfl, rfl⟩ := h
    exact ⟨_, fetchRegAddr_eq_ok.mpr ⟨r, joinAddr hi lo, rfl, by simp⟩⟩
  case storeMemory =>
    obtain ⟨hi, _, rfl, lo, _, rfl, src, _, rfl, rfl⟩ := h
    exact ⟨_, fetchAddrReg_eq_ok.mpr ⟨joinAddr hi lo, src, rfl, by simp⟩⟩
  case cmpEqReg | cmpGtReg | cmpLtReg | addReg | subReg =>
    obtain ⟨a, _, rfl, b, _, rfl, d, _, rfl, rfl⟩ := h
    exact ⟨_, fetchThreeRegs_eq_ok.mpr ⟨a, b, d, rfl, rfl⟩⟩
  case cmpEqImm | addImm | subImm =>
    obtain ⟨a, _, rfl, v, _, rfl, d, _, rfl, rfl⟩ := h
    exact ⟨_, fetchRegImmReg_eq_ok.mpr ⟨a, v, d, rfl, rfl⟩⟩

/-- The decoder reads an instruction of the opcode `o`, and nothing more, exactly from the code of `o`
with legal operand bytes after it. -/
theorem exists_decode_eq_ok_iff {o : Opcode} {bs : List Byte} :
    (∃ i : Instr, i.opcode = o ∧ decode bs = .ok (i, [])) ↔
      ∃ ops, bs = o.code :: ops ∧ OperandsLegal (operandKinds o) ops := by
  constructor
  · rintro ⟨i, rfl, hd⟩
    refine ⟨i.operandBytes, ?_, operandsLegal_operandBytes i⟩
    exact (decode_eq_ok_iff.mp hd).trans (List.append_nil _)
  · rintro ⟨ops, rfl, hops⟩
    obtain ⟨i, hd⟩ := decodeOperands_of_legal hops
    exact ⟨i, (decodeOperands_eq_ok_iff.mp hd).1, (decode_code o ops).trans hd⟩

/-! The rows of the opcode table as opcodes with their formats -/

/-- The byte of reg_mask over an operand byte (R93). -/
def operandMask : OperandByte → Byte
  | .regIndex => 0xFC#8
  | .raw => 0x00#8

theorem land_operandMask_eq_zero_iff (k : OperandByte) (b : Byte) :
    b &&& operandMask k = 0x00#8 ↔ k.legal b = true := by
  cases k with
  | regIndex => exact (regMask_byte_iff b).trans decide_eq_true_iff.symm
  | raw => exact iff_of_true BitVec.and_zero rfl

/-- The reg_mask of a format accepts exactly its legal operand bytes. -/
theorem zipWith_operandMask_iff {ks : List OperandByte} {bs : List Byte}
    (h : bs.length = ks.length) :
    List.zipWith (· &&& ·) bs (ks.map operandMask) = List.replicate ks.length 0x00#8 ↔
      OperandsLegal ks bs := by
  induction ks generalizing bs with
  | nil => simpa using h
  | cons k ks ih =>
    cases bs with
    | nil => simp at h
    | cons b bs =>
      simp only [List.length_cons, Nat.add_right_cancel_iff] at h
      simp [OperandsLegal, List.replicate_succ, land_operandMask_eq_zero_iff, ih h]

theorem zipWith_zeros (bs : List Byte) :
    List.zipWith (· &&& ·) bs (List.replicate bs.length 0x00#8) =
      List.replicate bs.length 0x00#8 := by
  induction bs with
  | nil => rfl
  | cons b bs ih => simp [List.replicate_succ, ih]

/-- The mask covers the opcode byte and no operand byte (R93). -/
theorem zipWith_opcodeMask_iff {b c : Byte} {bs : List Byte} :
    List.zipWith (· &&& ·) (b :: bs) (0xFF#8 :: List.replicate bs.length 0x00#8) =
      c :: List.replicate bs.length 0x00#8 ↔ b = c := by
  have hop : b &&& 0xFF#8 = b := BitVec.and_allOnes
  rw [List.zipWith_cons_cons, zipWith_zeros, hop, List.cons.injEq, and_iff_left rfl]

/-- Every row of the table is an opcode's: match is its code over the opcode byte, and reg_mask the
masks of its operand bytes (R93). -/
theorem row_format : ∀ row ∈ opcodeTable,
    row.length = (operandKinds row.opcode).length + 1
    ∧ wordOf (row.opcode.code :: List.replicate (operandKinds row.opcode).length 0x00#8)
        = row.matchBits
    ∧ wordOf (0xFF#8 :: List.replicate (operandKinds row.opcode).length 0x00#8) = row.mask
    ∧ wordOf (0x00#8 :: (operandKinds row.opcode).map operandMask) = row.regMask := by
  decide

theorem wordOf_replicate_zero (n : Nat) : wordOf (List.replicate n 0x00#8) = 0 := by
  induction n with
  | zero => rfl
  | succ n ih => simp [List.replicate_succ, wordOf, ih]

theorem length_of_accepts {row : TableRow} {bs : List Byte} (h : row.accepts bs = true) :
    bs.length = row.length := by
  simp only [TableRow.accepts, Bool.and_eq_true, beq_iff_eq] at h
  obtain ⟨⟨hlength, _⟩, _⟩ := h
  exact hlength

/-- Bytes of a row's length are accepted when the first is the code of the opcode and the others are
legal operand bytes. -/
theorem accepts_cons_iff {row : TableRow} (hrow : row ∈ opcodeTable) {b : Byte} {ops : List Byte}
    (hops : ops.length = (operandKinds row.opcode).length) :
    row.accepts (b :: ops) = true ↔
      b = row.opcode.code ∧ OperandsLegal (operandKinds row.opcode) ops := by
  obtain ⟨hlength, hmatch, hmask, hregMask⟩ := row_format row hrow
  have hzero := wordOf_replicate_zero ((operandKinds row.opcode).length + 1)
  rw [TableRow.accepts_iff (by simp [hops, hlength]) (by simp [hlength]) (by simp [hlength])
    (by simp [hlength]) (by simp [hlength]) hmatch hmask hregMask hzero, ← hops,
    zipWith_opcodeMask_iff, ← zipWith_operandMask_iff hops, hops]
  simp [List.replicate_succ]

/-- A row accepts exactly the code of its opcode with legal operand bytes after it. -/
theorem accepts_iff_operandsLegal {row : TableRow} (hrow : row ∈ opcodeTable) {bs : List Byte} :
    row.accepts bs = true ↔
      ∃ ops, bs = row.opcode.code :: ops ∧ OperandsLegal (operandKinds row.opcode) ops := by
  have hlength := (row_format row hrow).1
  constructor
  · intro h
    have hbs := (length_of_accepts h).trans hlength
    cases bs with
    | nil => cases hbs
    | cons b ops =>
      obtain ⟨rfl, hops⟩ := (accepts_cons_iff hrow (Nat.succ.inj hbs)).mp h
      exact ⟨ops, rfl, hops⟩
  · rintro ⟨ops, rfl, hops⟩
    exact (accepts_cons_iff hrow hops.length_eq.symm).mpr ⟨rfl, hops⟩

/-- Settles O3: a row and the decoder accept the same bytes, those of the row's format. -/
theorem decoderAcceptsExactlyTheTableWords : Obligations.DecoderAcceptsExactlyTheTableWords := by
  refine ⟨fun row hrow bs => ?_, fun o => ?_⟩
  · rw [accepts_iff_operandsLegal hrow, exists_decode_eq_ok_iff]
  · cases o <;> decide

/-! The length of an instruction -/

theorem length_of_decode {bs rest : List Byte} {i : Instr} (h : decode bs = .ok (i, rest)) :
    bs.length = i.length + rest.length := by
  rw [decode_eq_ok_iff.mp h, List.length_append, encode_length]

/-- The first byte of a decoded instruction is the code of its opcode (R77). -/
theorem opcodeOf_of_decode {b : Byte} {bs rest : List Byte} {i : Instr}
    (h : decode (b :: bs) = .ok (i, rest)) : opcodeOf b = some i.opcode := by
  obtain ⟨rfl, -⟩ := List.cons.inj (decode_eq_ok_iff.mp h)
  exact opcodeOf_code i.opcode

/-- Every row of the table has the length of its opcode (R76). -/
theorem row_length : ∀ row ∈ opcodeTable, row.length = row.opcode.length := by decide

/-- Settles O5: the first byte fixes the opcode, and the opcode the length. -/
theorem opcodeByteAloneFixesTheLength : Obligations.OpcodeByteAloneFixesTheLength := by
  intro b bs bs' rest rest' i i' h h'
  have hopcode : i.opcode = i'.opcode :=
    Option.some.inj ((opcodeOf_of_decode h).symm.trans (opcodeOf_of_decode h'))
  have hsame : i.length = i'.length := congrArg Opcode.length hopcode
  have hlen := length_of_decode h
  have hlen' := length_of_decode h'
  have hbounds := i.length_le
  simp only [List.length_cons] at hlen hlen'
  refine ⟨by omega, by omega, by omega, fun row hrow ho => ?_⟩
  have hrowLength : row.length = i.length := (row_length row hrow).trans (congrArg _ ho)
  omega

/-! The illegal opcode bytes -/

/-- Settles O40: no opcode has its code in the six ranges, so decoding stops at the first byte. -/
theorem illegalOpcodesFailTheIteration : Obligations.IllegalOpcodesFailTheIteration := by
  intro s b hf hs hb
  have hnone : opcodeOf b = none := by
    refine (opcodeOf_eq_none_iff b).mpr fun o ho => ?_
    subst ho
    revert hb
    cases o <;> decide
  exact failsWith_of_sees hf hs (by simp) fun rest => decode_unknown hnone rest

end Sys2Proof.Proofs

/-! The proofs of the family 40_fetch_decode_execute.md: the host phase of an iteration, and the three
outcomes of the instruction it runs. -/

namespace Sys2Proof.Proofs

open Sys2Proof.Machine

/-! The outcomes of a meaning and of an iteration -/

/-- A meaning answers a next state, leaves the host's side alone, and continues, halts (HALT only) or
raises AddressOutOfRange (R111). -/
theorem exec_outcome (i : Instr) (s : State) :
    ∃ t, exec i s = .next t ∧ HostSideSame s t
      ∧ (t.status = s.status ∨ (i = .halt ∧ t.status = .halted)
        ∨ t = s.raise .addressOutOfRange) := by
  rcases exec_cases i s with
    ⟨d, v, e, _⟩ | ⟨A, src, _, _, e⟩ | ⟨c, T, _, _, e⟩ | ⟨_, e⟩ | ⟨hi, e⟩ | ⟨_, e⟩
    <;> refine ⟨_, e, HostSideSame.refl s, ?_⟩
  case inr.inr.inr.inr.inl => exact .inr (.inl ⟨hi, rfl⟩)
  case inr.inr.inr.inr.inr => exact .inr (.inr rfl)
  all_goals exact .inl rfl

/-- What decoding raises is one of the three kinds that an iteration can fail with (R110). -/
theorem errorKindOf_cases (e : DecodeError) :
    errorKindOf e = .invalidRegisterIndex ∨ errorKindOf e = .unknownOpcode
      ∨ errorKindOf e = .addressOutOfRange := by
  cases e <;> decide

/-- An iteration that fetches raises an error with nothing written since its host phase, or continues,
or halts on HALT's byte. -/
theorem step_outcome {s : State} (hf : s.Fetches) :
    ∃ t, step s = .next t
      ∧ (t.status = .running ∨ (t.status = .halted ∧ s.Sees [0x00#8])
        ∨ ∃ k, (k = .invalidRegisterIndex ∨ k = .unknownOpcode ∨ k = .addressOutOfRange)
          ∧ t.status = .failed k ∧ OnlyPcAndStatus s.hostPhase t) := by
  cases hd : decode s.hostPhase.window with
  | error e =>
    exact ⟨_, step_of_decode_error hf hd,
      .inr (.inr ⟨errorKindOf e, errorKindOf_cases e, rfl, raise_only _ _⟩)⟩
  | ok p =>
    obtain ⟨i, rest⟩ := p
    obtain ⟨t, ht, _, hout⟩ := exec_outcome i (s.hostPhase.advance i)
    refine ⟨t, (step_of_decode_ok hf hd).trans ht, ?_⟩
    rcases hout with hcont | ⟨rfl, hhalt⟩ | rfl
    · exact .inl (hcont.trans hf.1)
    · exact .inr (.inl ⟨hhalt, sees_encode_of_decode hd⟩)
    · exact .inr (.inr ⟨.addressOutOfRange, .inr (.inr rfl), rfl, raise_only _ _⟩)

/-- Settles O32, by `step_outcome`. -/
theorem everyIterationEndsInOneOfThreeOutcomes :
    Obligations.EveryIterationEndsInOneOfThreeOutcomes := by
  intro s hf
  obtain ⟨t, ht, hrun | hhalt | ⟨k, hk, hfail, _⟩⟩ := step_outcome hf
  · exact ⟨t, ht, .inl hrun⟩
  · exact ⟨t, ht, .inr (.inl hhalt)⟩
  · refine ⟨t, ht, .inr (.inr ?_)⟩
    rcases hk with rfl | rfl | rfl
    · exact .inl hfail
    · exact .inr (.inl hfail)
    · exact .inr (.inr hfail)

/-- Settles O33: of the outcomes in `step_outcome` only the raised error is Failed. -/
theorem failedIterationWritesNothing : Obligations.FailedIterationWritesNothing := by
  intro s t k hf h hk
  obtain ⟨u, hu, hout⟩ := step_outcome hf
  cases hu.symm.trans h
  rcases hout with hrun | ⟨hhalt, _⟩ | ⟨_, _, _, honly⟩
  · cases hk.symm.trans hrun
  · cases hk.symm.trans hhalt
  · exact honly

/-- Settles O31: the decoder's answer is the instruction that is run. -/
theorem stepRunsTheDecodedInstruction : Obligations.StepRunsTheDecodedInstruction :=
  fun _ _ _ hf hd => step_of_decode_ok hf hd

/-! The host phase -/

/-- After its one host phase an iteration leaves the host's side alone, whether it is cancelled, fails
in decoding or executes (R112). -/
theorem step_running_hostSideSame {s : State} (hr : s.status = .running) :
    ∃ t, step s = .next t ∧ HostSideSame s.hostPhase t := by
  rcases step_running_cases hr with ⟨_, e⟩ | ⟨_, _, _, e⟩ | ⟨_, i, _, _, e⟩
  · exact ⟨_, e, HostSideSame.refl _⟩
  · exact ⟨_, e, HostSideSame.refl _⟩
  · obtain ⟨t, ht, hhost, _⟩ := exec_outcome i (s.hostPhase.advance i)
    exact ⟨t, e.trans ht, hhost⟩

/-- Settles O38: the record of the host's side is the one that the host phase leaves. -/
theorem everyIterationMakesOneHostPhase : Obligations.EveryIterationMakesOneHostPhase := by
  intro s hr
  obtain ⟨t, ht, _, _, hadapter, hphases, hrendered⟩ := step_running_hostSideSame hr
  exact ⟨t, ht, hrendered, hadapter, hphases⟩

/-- After the host phase 0x0100 reads as the input byte (R103). -/
theorem hostPhase_get_input (s : State) : s.hostPhase.mem.get 0x0100 = s.answer.inputByte :=
  Memory.get_set_same s.mem Config.inputAddr s.answer.inputByte

theorem inputByte_of_poll_some {a : AdapterAnswer} {b : Byte} (h : a.poll = some b) :
    a.inputByte = b := by
  rw [AdapterAnswer.inputByte, h, Option.getD_some]

theorem inputByte_of_poll_none {a : AdapterAnswer} (h : a.poll = none) : a.inputByte = 0x00#8 := by
  rw [AdapterAnswer.inputByte, h, Option.getD_none]

/-- Settles O37: the host phase is one write to 0x0100, of the polled byte or of 0x00. -/
theorem hostPhaseWritesOnlyTheInputByte : Obligations.HostPhaseWritesOnlyTheInputByte :=
  fun s => ⟨fun _ h => (hostPhase_get_input s).trans (inputByte_of_poll_some h),
    fun h => (hostPhase_get_input s).trans (inputByte_of_poll_none h),
    hostPhase_memSameBut s, fun _ => rfl, rfl, rfl⟩

/-- Settles O39: a cancellation raises right after the host phase, and its kind keeps `pc`. -/
theorem cancellationEndsTheRunBeforeTheFetch :
    Obligations.CancellationEndsTheRunBeforeTheFetch :=
  fun s hr hc => ⟨s.hostPhase.raise .adapterCancelled, step_cancelled hr hc, rfl, rfl,
    fun _ => rfl, fun _ => rfl, hostPhase_get_input s⟩

/-- Settles O41: at 0xFFFF the decoder has no bytes. -/
theorem fetchAtTheMissingCellFails : Obligations.FetchAtTheMissingCellFails := by
  intro s hf hpc
  have htop : s.pc.toNat + ([] : List Byte).length = 65535 := by rw [hpc]; rfl
  exact failsWith_at_top hf rfl (by decide) htop rfl

end Sys2Proof.Proofs

/-! The proofs of the family 41_halt_nop.md: the two instructions without operands. -/

namespace Sys2Proof.Proofs

open Sys2Proof.Machine

/-! An iteration at the encoding of an instruction -/

/-- An iteration that sees the encoding of an instruction runs it, once its bytes are fetched (R110). -/
theorem step_of_sees_encode {s : State} {i : Instr} (hf : s.Fetches) (hs : s.Sees (encode i)) :
    step s = exec i (s.hostPhase.advance i) :=
  step_of_sees hf hs ((encode_length i).trans_le i.length_le.2) fun _ => decode_eq_ok_iff.mpr rfl

/-- Fetching the encoding it sees, an iteration moves `pc` to J + L (R36). -/
theorem advance_pc_of_sees_encode {s : State} {i : Instr} (hs : s.Sees (encode i)) :
    (s.hostPhase.advance i).pc.toNat = s.pc.toNat + i.length :=
  advance_pc_toNat hs (encode_length i)

/-- A frame that leaves `pc` open may start before the fetch. -/
theorem onlyPcAndStatus_of_advance {s t : State} {i : Instr}
    (h : OnlyPcAndStatus (s.advance i) t) : OnlyPcAndStatus s t := by
  obtain ⟨hregs, hmem, hhost⟩ := h
  exact ⟨hregs, hmem, hhost⟩

/-! The meanings of HALT and NOP -/

theorem exec_halt (s : State) : exec .halt s = .next s.halt := rfl

theorem exec_nop (s : State) : exec .nop s = .next s := rfl

theorem onlyPc_refl (s : State) : OnlyPc s s :=
  ⟨fun _ => rfl, fun _ => rfl, rfl, HostSideSame.refl s⟩

/-- Settles O13: HALT only sets the status, and NOP answers the state it is given. -/
theorem haltAndNopComplete : Obligations.HaltAndNopComplete :=
  fun s => ⟨⟨s.halt, exec_halt s, State.halt_status s, State.halt_pc s, halt_only s⟩,
    s, exec_nop s, rfl, onlyPc_refl s⟩

/-! The iterations at HALT and at NOP -/

/-- Settles O14: after the fetch of its one byte HALT only sets the status, so `pc` stays at J + 1 and
0x0100 keeps the byte of the host phase. -/
theorem haltIterationFollowsItsRule : Obligations.HaltIterationFollowsItsRule := by
  intro s hf hs
  have hsees : s.Sees (encode .halt) := hs
  have hstep := (step_of_sees_encode hf hsees).trans (exec_halt _)
  exact ⟨(s.hostPhase.advance .halt).halt, hstep, State.halt_status _,
    advance_pc_of_sees_encode hsees, onlyPcAndStatus_of_advance (halt_only _),
    hostPhase_get_input s⟩

/-- Settles O15: the iteration at NOP is the host phase and the fetch of its one byte. -/
theorem nopIterationFollowsItsRule : Obligations.NopIterationFollowsItsRule := by
  intro s hf hs
  have hsees : s.Sees (encode .nop) := hs
  have hstep := (step_of_sees_encode hf hsees).trans (exec_nop _)
  exact ⟨s.hostPhase.advance .nop, hstep, hf.1, advance_pc_of_sees_encode hsees,
    advance_only s.hostPhase .nop, hostPhase_get_input s⟩

end Sys2Proof.Proofs

/-! The proofs of the family 42_load_store.md: the register moves, and the two instructions that
access a memory cell. -/

namespace Sys2Proof.Proofs

open Sys2Proof.Machine

/-! The operand errors of every format -/

/-- After the code of an opcode the decoder refuses the bytes that are not legal for its format, in
address order (R84). -/
theorem decodeErrors_code (o : Opcode) : DecodeErrors [o.code] (operandKinds o) := by
  cases o with
  | halt | nop => exact trivial
  | inc | dec => exact decodeErrors_oneReg (decode_code _)
  | loadImmediate => exact decodeErrors_regImm (decode_code _)
  | loadRegister => exact decodeErrors_twoRegs (decode_code _)
  | loadMemory | jumpIf => exact decodeErrors_regAddr (decode_code _)
  | storeMemory => exact decodeErrors_addrReg (decode_code _)
  | cmpEqReg | cmpGtReg | cmpLtReg | addReg | subReg => exact decodeErrors_threeRegs (decode_code _)
  | cmpEqImm | addImm | subImm => exact decodeErrors_regImmReg (decode_code _)

theorem operandKinds_length_le (o : Opcode) : (operandKinds o).length ≤ 3 := by cases o <;> decide

/-- The operand errors of an iteration at the code of an opcode are those of the opcode's format. -/
theorem operandErrors_code {s : State} (hf : s.Fetches) (o : Opcode) :
    OperandErrors s [o.code] (operandKinds o) := by
  have hlen : [o.code].length + (operandKinds o).length ≤ 4 := by
    have := operandKinds_length_le o
    rw [List.length_singleton]
    omega
  exact operandErrors_of_decode hf hlen (decodeErrors_code o)

/-! An iteration by the one write of its instruction -/

theorem onlyRegister_of_advance {s t : State} {i : Instr} {d : Reg}
    (h : OnlyRegister d (s.advance i) t) : OnlyRegister d s t := by
  obtain ⟨hregs, hmem, hstatus, hhost⟩ := h
  exact ⟨hregs, hmem, hstatus, hhost⟩

theorem onlyCell_of_advance {s t : State} {i : Instr} {a : Nat}
    (h : OnlyCell a (s.advance i) t) : OnlyCell a s t := by
  obtain ⟨hregs, hmem, hstatus, hhost⟩ := h
  exact ⟨hregs, hmem, hstatus, hhost⟩

/-- An iteration whose instruction writes a register changes that register and `pc` only. -/
theorem step_of_exec_writeReg {s : State} {i : Instr} {d : Reg} {v : Byte} (hf : s.Fetches)
    (hs : s.Sees (encode i))
    (he : exec i (s.hostPhase.advance i) = .next ((s.hostPhase.advance i).writeReg d v)) :
    ∃ t, step s = .next t ∧ t.readReg d = v ∧ t.pc.toNat = s.pc.toNat + i.length
      ∧ OnlyRegister d s.hostPhase t :=
  ⟨_, (step_of_sees_encode hf hs).trans he, State.writeReg_readReg_same _ d v,
    advance_pc_of_sees_encode hs, onlyRegister_of_advance (writeReg_only _ d v)⟩

/-- An iteration whose instruction writes a cell changes that cell and `pc` only. -/
theorem step_of_exec_setMem {s : State} {i : Instr} {a : Nat} {v : Byte} (hf : s.Fetches)
    (hs : s.Sees (encode i))
    (he : exec i (s.hostPhase.advance i) =
      .next ((s.hostPhase.advance i).setMem ((s.hostPhase.advance i).mem.set a v))) :
    ∃ t, step s = .next t ∧ t.mem.get a = v ∧ t.pc.toNat = s.pc.toNat + i.length
      ∧ OnlyCell a s.hostPhase t :=
  ⟨_, (step_of_sees_encode hf hs).trans he, Memory.get_set_same _ a v,
    advance_pc_of_sees_encode hs, onlyCell_of_advance (setMem_only _ a v)⟩

/-- An iteration whose instruction raises an error fails with nothing written since its host
phase. -/
theorem failsWith_of_exec_raise {s : State} {i : Instr} {k : ErrorKind} (hf : s.Fetches)
    (hs : s.Sees (encode i))
    (he : exec i (s.hostPhase.advance i) = .next ((s.hostPhase.advance i).raise k)) :
    FailsWith k s :=
  ⟨_, (step_of_sees_encode hf hs).trans he, rfl, onlyPcAndStatus_of_advance (raise_only _ k)⟩

/-! The meanings of the loads, the store and the register move -/

theorem exec_loadImmediate (d : Reg) (v : Byte) (s : State) :
    exec (.loadImmediate d v) s = .next (s.writeReg d v) := rfl

theorem exec_loadRegister (d src : Reg) (s : State) :
    exec (.loadRegister d src) s = .next (s.writeReg d (s.readReg src)) := rfl

theorem exec_loadMemory_of_lt {A : Addr} (h : A.toNat < 65535) (d : Reg) (s : State) :
    exec (.loadMemory d A) s = .next (s.writeReg d (s.mem.get A.toNat)) := commitLoad_of_lt h d s

theorem exec_loadMemory_of_eq {A : Addr} (h : A.toNat = 65535) (d : Reg) (s : State) :
    exec (.loadMemory d A) s = .next (s.raise .addressOutOfRange) := commitLoad_of_eq h d s

theorem exec_storeMemory_of_lt {A : Addr} (h : A.toNat < 65535) (src : Reg) (s : State) :
    exec (.storeMemory A src) s = .next (s.setMem (s.mem.set A.toNat (s.readReg src))) :=
  commitStore_of_lt h _ s

theorem exec_storeMemory_of_eq {A : Addr} (h : A.toNat = 65535) (src : Reg) (s : State) :
    exec (.storeMemory A src) s = .next (s.raise .addressOutOfRange) := commitStore_of_eq h _ s

/-- Settles O7: each of the two writes its destination register and nothing else. -/
theorem registerMovesComplete : Obligations.RegisterMovesComplete := by
  intro d src v s
  exact ⟨⟨_, exec_loadImmediate d v s, State.writeReg_readReg_same s d v, rfl, writeReg_only s d v⟩,
    _, exec_loadRegister d src s, State.writeReg_readReg_same s d _, rfl, writeReg_only s d _⟩

/-- Settles O8: every address but 0xFFFF names a cell, and at 0xFFFF the read is the error. -/
theorem loadMemoryCompletesAtEveryCell : Obligations.LoadMemoryCompletesAtEveryCell := by
  intro d A s
  constructor
  · intro hA
    exact ⟨_, exec_loadMemory_of_lt (addr_lt_of_ne hA) d s, State.writeReg_readReg_same s d _, rfl,
      writeReg_only s d _⟩
  · rintro rfl
    exact ⟨_, exec_loadMemory_of_eq rfl d s, State.raise_status s _, raise_only s _⟩

/-- Settles O9: every address but 0xFFFF names a cell, and at 0xFFFF the write is the error. -/
theorem storeMemoryCompletesAtEveryCell : Obligations.StoreMemoryCompletesAtEveryCell := by
  intro A src s
  constructor
  · intro hA
    exact ⟨_, exec_storeMemory_of_lt (addr_lt_of_ne hA) src s, Memory.get_set_same s.mem _ _, rfl,
      setMem_only s _ _⟩
  · rintro rfl
    exact ⟨_, exec_storeMemory_of_eq rfl src s, State.raise_status s _, raise_only s _⟩

/-! The iterations -/

/-- Settles O16, by `step_of_exec_writeReg`. -/
theorem loadImmediateIterationFollowsItsRule : Obligations.LoadImmediateIterationFollowsItsRule :=
  fun _ hf =>
    ⟨fun d v hs => step_of_exec_writeReg (i := .loadImmediate d v) hf hs (exec_loadImmediate d v _),
      operandErrors_code hf .loadImmediate⟩

/-- Settles O17, by `step_of_exec_writeReg`: neither the host phase nor the fetch changes the
source. -/
theorem loadRegisterIterationFollowsItsRule : Obligations.LoadRegisterIterationFollowsItsRule :=
  fun _ hf =>
    ⟨fun d src hs =>
        step_of_exec_writeReg (i := .loadRegister d src) hf hs (exec_loadRegister d src _),
      operandErrors_code hf .loadRegister⟩

/-- The encoding of LOAD_MEMORY by the two bytes of its address (R80). -/
theorem encode_loadMemory_joinAddr (d : Reg) (hi lo : Byte) :
    encode (.loadMemory d (joinAddr hi lo)) = [0x12#8, d.byte, hi, lo] := by
  rw [encode, Instr.operandBytes, addrHi_joinAddr, addrLo_joinAddr]
  rfl

/-- The encoding of STORE_MEMORY by the two bytes of its address (R80). -/
theorem encode_storeMemory_joinAddr (hi lo : Byte) (src : Reg) :
    encode (.storeMemory (joinAddr hi lo) src) = [0x20#8, hi, lo, src.byte] := by
  rw [encode, Instr.operandBytes, addrHi_joinAddr, addrLo_joinAddr]
  rfl

/-- Settles O18: the address bytes name a cell or 0xFFFF, and the meaning of each case is known. -/
theorem loadMemoryIterationFollowsItsRule : Obligations.LoadMemoryIterationFollowsItsRule := by
  refine fun s hf => ⟨fun d hi lo hs => ?_, operandErrors_code hf .loadMemory⟩
  rw [← encode_loadMemory_joinAddr] at hs
  rw [← joinAddr_toNat]
  refine ⟨fun hne => ?_, fun htop => ?_⟩
  · have hlt := (addr_lt_or_eq (joinAddr hi lo)).resolve_right hne
    exact step_of_exec_writeReg hf hs (exec_loadMemory_of_lt hlt d _)
  · exact failsWith_of_exec_raise hf hs (exec_loadMemory_of_eq htop d _)

/-- Settles O19: as for LOAD_MEMORY; the bytes of the instruction are fetched before the write, so
it does not matter whether the cell is one of them. -/
theorem storeMemoryIterationFollowsItsRule : Obligations.StoreMemoryIterationFollowsItsRule := by
  refine fun s hf => ⟨fun hi lo src hs => ?_, operandErrors_code hf .storeMemory⟩
  rw [← encode_storeMemory_joinAddr] at hs
  rw [← joinAddr_toNat]
  refine ⟨fun hne => ?_, fun htop => ?_⟩
  · have hlt := (addr_lt_or_eq (joinAddr hi lo)).resolve_right hne
    exact step_of_exec_setMem hf hs (exec_storeMemory_of_lt hlt src _)
  · exact failsWith_of_exec_raise hf hs (exec_storeMemory_of_eq htop src _)

end Sys2Proof.Proofs

/-! The proofs of the family 43_compare.md: the four comparisons, and what follows from their answer
being exactly 0x01 or 0x00. -/

namespace Sys2Proof.Proofs

open Sys2Proof.Machine

/-! The comparator -/

theorem cmpEq_eq_ite (p q : Byte) : cmpEq p q = if p.toNat = q.toNat then 0x01#8 else 0x00#8 :=
  boolByte_decide _

theorem cmpGt_eq_ite (p q : Byte) : cmpGt p q = if q.toNat < p.toNat then 0x01#8 else 0x00#8 :=
  boolByte_decide _

theorem cmpLt_eq_ite (p q : Byte) : cmpLt p q = if p.toNat < q.toNat then 0x01#8 else 0x00#8 :=
  boolByte_decide _

/-- Settles O59: each predicate is the byte of a decided comparison of the unsigned numbers. -/
theorem comparatorIsUnsignedAndAnswersABit : Obligations.ComparatorIsUnsignedAndAnswersABit :=
  fun p q => ⟨cmpEq_eq_ite p q, cmpGt_eq_ite p q, cmpLt_eq_ite p q⟩

/-! The meanings of the comparisons -/

/-- A meaning that commits a value to a register, by another expression for that value. -/
theorem commitReg_of_eq {v w : Byte} (h : v = w) (d : Reg) (s : State) :
    commitReg d v s = .next (s.writeReg d w) := by
  rw [commitReg_eq, h]

theorem exec_cmpEqReg (a b d : Reg) (s : State) :
    exec (.cmpEqReg a b d) s = .next (s.writeReg d
      (if (s.readReg a).toNat = (s.readReg b).toNat then 0x01#8 else 0x00#8)) :=
  commitReg_of_eq (cmpEq_eq_ite _ _) d s

theorem exec_cmpEqImm (a : Reg) (v : Byte) (d : Reg) (s : State) :
    exec (.cmpEqImm a v d) s = .next (s.writeReg d
      (if (s.readReg a).toNat = v.toNat then 0x01#8 else 0x00#8)) :=
  commitReg_of_eq (cmpEq_eq_ite _ _) d s

theorem exec_cmpGtReg (a b d : Reg) (s : State) :
    exec (.cmpGtReg a b d) s = .next (s.writeReg d
      (if (s.readReg b).toNat < (s.readReg a).toNat then 0x01#8 else 0x00#8)) :=
  commitReg_of_eq (cmpGt_eq_ite _ _) d s

theorem exec_cmpLtReg (a b d : Reg) (s : State) :
    exec (.cmpLtReg a b d) s = .next (s.writeReg d
      (if (s.readReg a).toNat < (s.readReg b).toNat then 0x01#8 else 0x00#8)) :=
  commitReg_of_eq (cmpLt_eq_ite _ _) d s

/-- A meaning that writes a register completes, leaving the value there and all else as it was. -/
theorem completes_of_exec_writeReg {i : Instr} {s : State} {d : Reg} {v : Byte}
    (he : exec i s = .next (s.writeReg d v)) :
    ∃ t, exec i s = .next t ∧ t.readReg d = v ∧ t.pc = s.pc ∧ OnlyRegister d s t :=
  ⟨_, he, State.writeReg_readReg_same s d v, State.writeReg_pc s d v, writeReg_only s d v⟩

/-- Settles O10: each comparison writes its answer on the old values to dest. -/
theorem comparisonsComplete : Obligations.ComparisonsComplete :=
  fun a b d v s =>
    ⟨completes_of_exec_writeReg (exec_cmpEqReg a b d s),
      completes_of_exec_writeReg (exec_cmpEqImm a v d s),
      completes_of_exec_writeReg (exec_cmpGtReg a b d s),
      completes_of_exec_writeReg (exec_cmpLtReg a b d s)⟩

/-! The iterations: neither the host phase nor the fetch changes a source -/

/-- Settles O20, by `step_of_exec_writeReg`. -/
theorem cmpEqRegIterationFollowsItsRule : Obligations.CmpEqRegIterationFollowsItsRule :=
  fun _ hf =>
    ⟨fun a b d hs =>
        step_of_exec_writeReg (i := .cmpEqReg a b d) hf hs (exec_cmpEqReg a b d _),
      operandErrors_code hf .cmpEqReg⟩

/-- Settles O21, by `step_of_exec_writeReg`; in the format of CMP_EQ_IMM the value byte is raw. -/
theorem cmpEqImmIterationFollowsItsRule : Obligations.CmpEqImmIterationFollowsItsRule :=
  fun _ hf =>
    ⟨fun a v d hs =>
        step_of_exec_writeReg (i := .cmpEqImm a v d) hf hs (exec_cmpEqImm a v d _),
      operandErrors_code hf .cmpEqImm⟩

/-- Settles O22, by `step_of_exec_writeReg`. -/
theorem cmpGtRegIterationFollowsItsRule : Obligations.CmpGtRegIterationFollowsItsRule :=
  fun _ hf =>
    ⟨fun a b d hs =>
        step_of_exec_writeReg (i := .cmpGtReg a b d) hf hs (exec_cmpGtReg a b d _),
      operandErrors_code hf .cmpGtReg⟩

/-- Settles O23, by `step_of_exec_writeReg`; opcode 0x33 has the format of three registers (D12). -/
theorem cmpLtRegIterationFollowsItsRule : Obligations.CmpLtRegIterationFollowsItsRule :=
  fun _ hf =>
    ⟨fun a b d hs =>
        step_of_exec_writeReg (i := .cmpLtReg a b d) hf hs (exec_cmpLtReg a b d _),
      operandErrors_code hf .cmpLtReg⟩

/-! A jump on the answer of a comparison -/

theorem exec_jumpIf_of_taken {c : Reg} {s : State} (h : s.readReg c = 0x01#8) (T : Addr) :
    exec (.jumpIf c T) s = .next (s.setPc T) := if_pos (decide_eq_true h)

theorem exec_jumpIf_of_not_taken {c : Reg} {s : State} (h : s.readReg c ≠ 0x01#8) (T : Addr) :
    exec (.jumpIf c T) s = .next s := if_neg (mt of_decide_eq_true h)

/-- JUMP_IF on the register to which an instruction has written the answer to `P` is taken exactly
when `P` holds: the answer is 0x01 then, and else 0x00, which is not 0x01 (R141). -/
theorem jumpIf_after_answer {P : Prop} [Decidable P] {i : Instr} {s : State} {d : Reg}
    (he : exec i s = .next (s.writeReg d (if P then 0x01#8 else 0x00#8))) (T : Addr) :
    ∃ t u, exec i s = .next t ∧ exec (.jumpIf d T) t = .next u
      ∧ u.pc = (if P then T else s.pc) := by
  by_cases hP : P
  · rw [if_pos hP] at he ⊢
    exact ⟨_, _, he, exec_jumpIf_of_taken (State.writeReg_readReg_same s d _) T, rfl⟩
  · rw [if_neg hP] at he ⊢
    have hne : (s.writeReg d 0x00#8).readReg d ≠ 0x01#8 := by
      rw [State.writeReg_readReg_same]
      decide
    exact ⟨_, _, he, exec_jumpIf_of_not_taken hne T, rfl⟩

/-- Settles O51, by `jumpIf_after_answer`; bytes are equal when their unsigned numbers are. -/
theorem comparisonResultDecidesTheJump : Obligations.ComparisonResultDecidesTheJump := by
  intro a b d v T s
  simp only [← BitVec.toNat_inj (x := s.readReg a)]
  exact ⟨jumpIf_after_answer (exec_cmpEqReg a b d s) T, jumpIf_after_answer (exec_cmpEqImm a v d s) T,
    jumpIf_after_answer (exec_cmpGtReg a b d s) T, jumpIf_after_answer (exec_cmpLtReg a b d s) T⟩

/-! Greater-or-equal -/

theorem onlyRegister_trans {d : Reg} {s t u : State} (hst : OnlyRegister d s t)
    (htu : OnlyRegister d t u) : OnlyRegister d s u := by
  obtain ⟨hregs, hmem, hstatus, hcalls, hload, hadapter, hphases, hrendered⟩ := hst
  obtain ⟨hregs', hmem', hstatus', hcalls', hload', hadapter', hphases', hrendered'⟩ := htu
  exact ⟨fun r hr => (hregs' r hr).trans (hregs r hr), fun a => (hmem' a).trans (hmem a),
    hstatus'.trans hstatus, hcalls'.trans hcalls, hload'.trans hload, hadapter'.trans hadapter,
    hphases'.trans hphases, hrendered'.trans hrendered⟩

/-- Whether an answer equals 0x00 is the answer to the negation. -/
theorem answer_eq_zero_ite (P : Prop) [Decidable P] :
    (if (if P then 0x01#8 else 0x00#8).toNat = (0x00#8).toNat then 0x01#8 else 0x00#8)
      = if P then 0x00#8 else 0x01#8 := by
  by_cases hP : P
  · rw [if_pos hP, if_pos hP]
    rfl
  · rw [if_neg hP, if_neg hP]
    rfl

/-- Settles O52: the second comparison negates the answer of the first, and `a ≥ b` is the negation
of `a < b`. -/
theorem greaterOrEqualByComposition : Obligations.GreaterOrEqualByComposition := by
  intro a b d s
  refine ⟨_, _, exec_cmpLtReg a b d s, exec_cmpEqImm d 0x00#8 d _, ?_,
    onlyRegister_trans (writeReg_only s d _) (writeReg_only _ d _)⟩
  simp only [State.writeReg_readReg_same, answer_eq_zero_ite, ← Nat.not_lt, ite_not]

end Sys2Proof.Proofs

/-! The proofs of the family 44_jump.md: JUMP_IF and its iteration, and the jump to itself that only
a cancellation ends. -/

namespace Sys2Proof.Proofs

open Sys2Proof.Machine

/-! The meaning of JUMP_IF -/

/-- JUMP_IF sets `pc`: to its target when it is taken, and else to where it stands (R145, R148). -/
theorem exec_jumpIf (c : Reg) (T : Addr) (s : State) :
    exec (.jumpIf c T) s = .next (s.setPc (if s.readReg c = 0x01#8 then T else s.pc)) := by
  by_cases h : s.readReg c = 0x01#8
  · rw [if_pos h, exec_jumpIf_of_taken h]
  · rw [if_neg h, exec_jumpIf_of_not_taken h]
    rfl

/-- Settles O12, by `exec_jumpIf`. -/
theorem jumpIfCompletes : Obligations.JumpIfCompletes :=
  fun c T s => ⟨_, exec_jumpIf c T s, State.setPc_pc s _, setPc_only s _⟩

/-! The iteration at JUMP_IF -/

theorem onlyPc_of_advance {s t : State} {i : Instr} (h : OnlyPc (s.advance i) t) : OnlyPc s t := by
  obtain ⟨hregs, hmem, hstatus, hhost⟩ := h
  exact ⟨hregs, hmem, hstatus, hhost⟩

/-- The encoding of JUMP_IF by the two bytes of its target (R80). -/
theorem encode_jumpIf_joinAddr (c : Reg) (hi lo : Byte) :
    encode (.jumpIf c (joinAddr hi lo)) = [0x40#8, c.byte, hi, lo] := by
  rw [encode, Instr.operandBytes, addrHi_joinAddr, addrLo_joinAddr]
  rfl

/-- An iteration at JUMP_IF sets `pc`; the host phase and the fetch leave the condition register. -/
theorem step_of_sees_jumpIf {s : State} {c : Reg} {T : Addr} (hf : s.Fetches)
    (hs : s.Sees (encode (.jumpIf c T))) :
    step s = .next ((s.hostPhase.advance (.jumpIf c T)).setPc
      (if s.readReg c = 0x01#8 then T else (s.hostPhase.advance (.jumpIf c T)).pc)) :=
  (step_of_sees_encode hf hs).trans (exec_jumpIf c T _)

/-- Settles O24: whether it is taken or not, the iteration has decoded the target, so the operand
errors are those of the format (R147). -/
theorem jumpIfIterationFollowsItsRule : Obligations.JumpIfIterationFollowsItsRule := by
  refine fun s hf => ⟨fun c hi lo hs => ?_, operandErrors_code hf .jumpIf⟩
  rw [← encode_jumpIf_joinAddr] at hs
  refine ⟨_, step_of_sees_jumpIf hf hs, onlyPc_of_advance (setPc_only _ _),
    fun htaken => ?_, fun hnot => ?_⟩
  · rw [State.setPc_pc, if_pos htaken, joinAddr_toNat]
  · rw [State.setPc_pc, if_neg hnot]
    exact advance_pc_of_sees_encode hs

/-! The jump to itself -/

/-- Bytes stay where they are when none of their cells changes. -/
theorem bytesAt_of_same {m n : Memory} {bs : List Byte} : ∀ {a : Nat},
    (∀ b, a ≤ b → b < a + bs.length → n.get b = m.get b) →
    bytesAt m a bs = true → bytesAt n a bs = true := by
  induction bs with
  | nil => exact fun _ _ => rfl
  | cons b bs ih =>
    intro a hsame h
    rw [List.length_cons] at hsame
    obtain ⟨ha, hb, hbs⟩ := bytesAt_cons.mp h
    have hhead : n.get a = b := (hsame a (by omega) (by omega)).trans hb
    exact bytesAt_cons.mpr ⟨ha, hhead, ih (fun x hx hx' => hsame x (by omega) (by omega)) hbs⟩

/-- The core runs at a JUMP_IF on `c` to its own address, which is taken and does not cover the cell
that the host phase writes (R151). -/
structure AtSelfJump (c : Reg) (s : State) : Prop where
  running : s.status = .running
  clear : s.pc.toNat + 4 ≤ 0x0100 ∨ 0x0100 < s.pc.toNat
  taken : s.readReg c = 0x01#8
  bytes : bytesAt s.mem s.pc.toNat (encode (.jumpIf c s.pc)) = true

/-- The input write leaves the bytes of the jump. -/
theorem AtSelfJump.sees {c : Reg} {s : State} (h : AtSelfJump c s) :
    s.Sees (encode (.jumpIf c s.pc)) := by
  refine bytesAt_of_same (fun b hb hb' => hostPhase_memSameBut s b ?_) h.bytes
  have hlen : (encode (.jumpIf c s.pc)).length = 4 := rfl
  rw [hlen] at hb'
  have hclear := h.clear
  omega

theorem AtSelfJump.hostPhase {c : Reg} {s : State} (h : AtSelfJump c s) :
    AtSelfJump c s.hostPhase where
  running := h.running
  clear := h.clear
  taken := h.taken
  bytes := h.sees

/-- An uncancelled iteration at the jump to itself is its host phase: the jump undoes the advance of
`pc`, and nothing else happens (R145). -/
theorem AtSelfJump.step_eq {c : Reg} {s : State} (h : AtSelfJump c s)
    (hc : s.answer.cancel = false) : step s = .next s.hostPhase := by
  rw [step_of_sees_jumpIf ⟨h.running, hc⟩ h.sees, if_pos h.taken]
  rfl

theorem reachesIn_zero (s : State) : ReachesIn 0 s s := rfl

theorem core_run_succ_of_step {M : Host.Core} {s t : M.State} (h : M.step s = .next t) (n : Nat) :
    M.run (n + 1) s = M.run n t := by
  rw [Host.Core.run, h]

theorem reachesIn_succ_of_step {n : Nat} {s t u : State} (h : step s = .next t)
    (hu : ReachesIn n t u) : ReachesIn (n + 1) s u :=
  (core_run_succ_of_step (M := core) h n).trans hu

theorem answer_of_adapter_cons {s : State} {a : AdapterAnswer} {as : List AdapterAnswer}
    (h : s.adapter = a :: as) : s.answer = a := by
  rw [State.answer, h]

/-- For as many answers as are listed and request no cancellation, the jump to itself repeats. -/
theorem AtSelfJump.reachesIn {c : Reg} : ∀ {n : Nat} {s : State}, AtSelfJump c s →
    n ≤ s.adapter.length → (∀ a ∈ s.adapter.take n, a.cancel = false) →
    ∃ t, ReachesIn n s t ∧ AtSelfJump c t ∧ t.pc = s.pc ∧ RegsSame s t := by
  intro n
  induction n with
  | zero => exact fun {s} h _ _ => ⟨s, reachesIn_zero s, h, rfl, fun _ => rfl⟩
  | succ n ih =>
    intro s h hn hcancel
    cases hadapter : s.adapter with
    | nil => simp [hadapter] at hn
    | cons a as =>
      rw [hadapter, List.length_cons] at hn
      rw [hadapter, List.take_succ_cons, List.forall_mem_cons] at hcancel
      obtain ⟨ha, has⟩ := hcancel
      have hstep := h.step_eq ((answer_of_adapter_cons hadapter).symm ▸ ha)
      have htail : s.hostPhase.adapter = as := by
        rw [State.hostPhase_adapter, hadapter, List.tail_cons]
      obtain ⟨t, ht, hjump, hpc, hregs⟩ :=
        ih h.hostPhase (htail ▸ Nat.le_of_succ_le_succ hn) (htail ▸ has)
      exact ⟨t, reachesIn_succ_of_step hstep ht, hjump, hpc, hregs⟩

/-- Settles O54: `AtSelfJump` holds at the start and every uncancelled iteration keeps it. -/
theorem selfJumpRepeatsUntilCancelled : Obligations.SelfJumpRepeatsUntilCancelled := by
  intro n s c hrunning hn hcancel hclear htaken hbytes
  obtain ⟨t, ht, hjump, hpc, hregs⟩ :=
    AtSelfJump.reachesIn ⟨hrunning, hclear, htaken, hbytes⟩ hn hcancel
  exact ⟨t, ht, hjump.running, hpc, hregs⟩

end Sys2Proof.Proofs

/-! The proofs of the family 45_arithmetic.md: the ALU, and the six instructions that write what it
answers. -/

namespace Sys2Proof.Proofs

open Sys2Proof.Machine

/-! The ALU: each answer is an exact integer, narrowed -/

/-- Narrowing a number that is not negative, read in `Nat`. -/
theorem narrow_natCast_toNat (n : Nat) : (narrow n).toNat = n % 256 := by
  have h := narrow_toNat n
  omega

theorem aluAdd_toNat (p q : Byte) : (aluAdd p q).toNat = (p.toNat + q.toNat) % 256 :=
  narrow_natCast_toNat (p.toNat + q.toNat)

theorem aluSub_toNat (p q : Byte) :
    ((aluSub p q).toNat : Int) = ((p.toNat : Int) - q.toNat) % 256 := narrow_toNat _

theorem aluInc_toNat (p : Byte) : (aluInc p).toNat = (p.toNat + 1) % 256 :=
  narrow_natCast_toNat (p.toNat + 1)

theorem aluDec_toNat (p : Byte) : ((aluDec p).toNat : Int) = ((p.toNat : Int) - 1) % 256 :=
  narrow_toNat _

/-- Settles O58: each function narrows its exact result (R155). -/
theorem aluWrapsModulo256 : Obligations.AluWrapsModulo256 :=
  fun p q => ⟨aluAdd_toNat p q, aluSub_toNat p q, aluInc_toNat p, aluDec_toNat p⟩

/-! The meanings of the arithmetic instructions -/

theorem exec_inc (r : Reg) (s : State) :
    exec (.inc r) s = .next (s.writeReg r (aluInc (s.readReg r))) := rfl

theorem exec_dec (r : Reg) (s : State) :
    exec (.dec r) s = .next (s.writeReg r (aluDec (s.readReg r))) := rfl

theorem exec_addReg (a b d : Reg) (s : State) :
    exec (.addReg a b d) s = .next (s.writeReg d (aluAdd (s.readReg a) (s.readReg b))) := rfl

theorem exec_subReg (a b d : Reg) (s : State) :
    exec (.subReg a b d) s = .next (s.writeReg d (aluSub (s.readReg a) (s.readReg b))) := rfl

theorem exec_addImm (a : Reg) (v : Byte) (d : Reg) (s : State) :
    exec (.addImm a v d) s = .next (s.writeReg d (aluAdd (s.readReg a) v)) := rfl

theorem exec_subImm (a : Reg) (v : Byte) (d : Reg) (s : State) :
    exec (.subImm a v d) s = .next (s.writeReg d (aluSub (s.readReg a) v)) := rfl

/-- What a reading `f` of the written byte gives, it gives of the register afterwards. Sums are read in
`Nat`, and differences, whose exact value may be negative, in `Int`. -/
theorem reading_of_written {α : Type} (f : Byte → α) {result : Result} {d : Reg} {v : Byte} {x : α}
    {Rest : State → Prop} (h : ∃ t, result = .next t ∧ t.readReg d = v ∧ Rest t) (hv : f v = x) :
    ∃ t, result = .next t ∧ f (t.readReg d) = x ∧ Rest t := by
  obtain ⟨t, hnext, rfl, hrest⟩ := h
  exact ⟨t, hnext, hv, hrest⟩

/-- A byte as the integer in which differences are exact. -/
def byteInt (b : Byte) : Int := b.toNat

/-- Settles O11: each instruction writes the answer of the ALU on the old values to its
destination. -/
theorem arithmeticCompletes : Obligations.ArithmeticCompletes :=
  fun a b d v s =>
    ⟨reading_of_written BitVec.toNat (completes_of_exec_writeReg (exec_inc d s)) (aluInc_toNat _),
      reading_of_written byteInt (completes_of_exec_writeReg (exec_dec d s)) (aluDec_toNat _),
      reading_of_written BitVec.toNat (completes_of_exec_writeReg (exec_addReg a b d s))
        (aluAdd_toNat _ _),
      reading_of_written byteInt (completes_of_exec_writeReg (exec_subReg a b d s))
        (aluSub_toNat _ _),
      reading_of_written BitVec.toNat (completes_of_exec_writeReg (exec_addImm a v d s))
        (aluAdd_toNat _ _),
      reading_of_written byteInt (completes_of_exec_writeReg (exec_subImm a v d s))
        (aluSub_toNat _ _)⟩

/-! The iterations: the host phase and the fetch change no register, so the sources are those of the
state before -/

/-- Settles O25, by `step_of_exec_writeReg` and the value of `aluInc`. -/
theorem incIterationFollowsItsRule : Obligations.IncIterationFollowsItsRule := by
  refine fun s hf => ⟨fun r hs => ?_, operandErrors_code hf .inc⟩
  have hwrite := step_of_exec_writeReg (i := .inc r) hf hs (exec_inc r _)
  exact reading_of_written BitVec.toNat hwrite (aluInc_toNat (s.readReg r))

/-- Settles O26, by `step_of_exec_writeReg` and the value of `aluDec`. -/
theorem decIterationFollowsItsRule : Obligations.DecIterationFollowsItsRule := by
  refine fun s hf => ⟨fun r hs => ?_, operandErrors_code hf .dec⟩
  have hwrite := step_of_exec_writeReg (i := .dec r) hf hs (exec_dec r _)
  exact reading_of_written byteInt hwrite (aluDec_toNat (s.readReg r))

/-- Settles O27, by `step_of_exec_writeReg` and the value of `aluAdd`; the sum is of the old values
also when dest is a source. -/
theorem addRegIterationFollowsItsRule : Obligations.AddRegIterationFollowsItsRule := by
  refine fun s hf => ⟨fun a b d hs => ?_, operandErrors_code hf .addReg⟩
  have hwrite := step_of_exec_writeReg (i := .addReg a b d) hf hs (exec_addReg a b d _)
  exact reading_of_written BitVec.toNat hwrite (aluAdd_toNat (s.readReg a) (s.readReg b))

/-- Settles O28, by `step_of_exec_writeReg` and the value of `aluSub`, whose minuend is `a`. -/
theorem subRegIterationFollowsItsRule : Obligations.SubRegIterationFollowsItsRule := by
  refine fun s hf => ⟨fun a b d hs => ?_, operandErrors_code hf .subReg⟩
  have hwrite := step_of_exec_writeReg (i := .subReg a b d) hf hs (exec_subReg a b d _)
  exact reading_of_written byteInt hwrite (aluSub_toNat (s.readReg a) (s.readReg b))

/-- Settles O29, by `step_of_exec_writeReg` and the value of `aluAdd`; the value byte is raw. -/
theorem addImmIterationFollowsItsRule : Obligations.AddImmIterationFollowsItsRule := by
  refine fun s hf => ⟨fun a v d hs => ?_, operandErrors_code hf .addImm⟩
  have hwrite := step_of_exec_writeReg (i := .addImm a v d) hf hs (exec_addImm a v d _)
  exact reading_of_written BitVec.toNat hwrite (aluAdd_toNat (s.readReg a) v)

/-- Settles O30, by `step_of_exec_writeReg` and the value of `aluSub`; the value byte is raw. -/
theorem subImmIterationFollowsItsRule : Obligations.SubImmIterationFollowsItsRule := by
  refine fun s hf => ⟨fun a v d hs => ?_, operandErrors_code hf .subImm⟩
  have hwrite := step_of_exec_writeReg (i := .subImm a v d) hf hs (exec_subImm a v d _)
  exact reading_of_written byteInt hwrite (aluSub_toNat (s.readReg a) v)

end Sys2Proof.Proofs

/-! The proofs of the family 70_reset_and_hazards.md: the state after construction, the host's call
`load`, and a run on a core that was never loaded. -/

namespace Sys2Proof.Proofs

open Sys2Proof.Machine

/-! The state after construction -/

@[simp] theorem reset_readReg (r : Reg) : State.reset.readReg r = 0x00#8 := by cases r <;> rfl

/-- Settles O47: reset lists no cell, and an unlisted cell reads 0x00. -/
theorem resetStateIsTheConstructedCore : Obligations.ResetStateIsTheConstructedCore :=
  ⟨reset_readReg, fun _ ha => memRead_of_lt (addr_lt_of_ne ha) State.reset.mem, rfl, rfl⟩

theorem reset_inv : State.reset.Inv where
  memCanonical := State.reset_mem_wf
  snapshotCanonical := fun _ h => nomatch h
  noLoadErrorInRun := nofun
  renderedInEveryHostPhase := iff_of_true rfl rfl
  entryPoint := fun _ => ⟨rfl, rfl, rfl⟩

/-- Settles O50, by `reset_inv`. -/
theorem resetMeetsTheInvariant : Obligations.ResetMeetsTheInvariant := reset_inv

/-! The host's call `load` -/

theorem hostCall_of_load {s : State} {program : List Byte} {rest : List HostCall}
    (h : s.calls = .load program :: rest) :
    hostCall s = performLoad program { s with calls := rest } := by
  simp [hostCall, h]

/-- On a core that is not running, a pending `load` is the step. -/
theorem step_of_load {s : State} {program : List Byte} {rest : List HostCall}
    (hr : s.status ≠ .running) (hc : s.calls = .load program :: rest) :
    step s = performLoad program { s with calls := rest } :=
  (step_not_running hr).trans (hostCall_of_load hc)

/-- The first load of a program that fits copies it and sets `pc` (R202). -/
theorem performLoad_of_fits {s : State} {program : List Byte} (hs : s.status = .idle)
    (hl : s.loadResult = .notCalled) (hfits : program.length ≤ 32767) :
    performLoad program s = .next { s with
      mem := s.mem.setAll 0x8000 program, pc := 0x8000#16, loadResult := .accepted } := by
  simp only [performLoad, hs, hl]
  exact if_pos hfits

/-- The first load of a program that does not fit is only recorded (R203). -/
theorem performLoad_of_too_large {s : State} {program : List Byte} (hs : s.status = .idle)
    (hl : s.loadResult = .notCalled) (hlarge : 32767 < program.length) :
    performLoad program s = .next { s with loadResult := .programTooLarge } := by
  simp only [performLoad, hs, hl]
  exact if_neg (Nat.not_le.mpr hlarge)

theorem performLoad_of_called {s : State} {program : List Byte} (hs : s.status = .idle)
    (hl : s.loadResult ≠ .notCalled) : performLoad program s = .refused .secondLoad := by
  cases h : s.loadResult with
  | notCalled => exact absurd h hl
  | accepted | programTooLarge => simp only [performLoad, hs, h]

theorem performLoad_of_ended {s : State} {program : List Byte}
    (hs : s.status = .halted ∨ ∃ k, s.status = .failed k) :
    performLoad program s = .refused .loadAfterRun := by
  rcases hs with h | ⟨k, h⟩ <;> simp only [performLoad, h]

/-- Settles O44: the load is one `Memory.setAll`, whose laws say what each cell reads. -/
theorem loadCopiesTheProgramVerbatim : Obligations.LoadCopiesTheProgramVerbatim := by
  intro s program rest hs hl hc hfits
  have hstep := (step_of_load (by simp [hs]) hc).trans
    (performLoad_of_fits (s := { s with calls := rest }) hs hl hfits)
  exact ⟨_, hstep, rfl, Memory.get_setAll_inside program s.mem 0x8000,
    Memory.get_setAll_outside program s.mem 0x8000, fun _ => rfl, hs, rfl⟩

/-- Settles O45: a rejected load changes only the record of `load`. -/
theorem oversizedProgramIsRejected : Obligations.OversizedProgramIsRejected := by
  intro s program rest hs hl hc hlarge
  have hstep := (step_of_load (by simp [hs]) hc).trans
    (performLoad_of_too_large (s := { s with calls := rest }) hs hl hlarge)
  exact ⟨_, hstep, rfl, rfl, fun _ => rfl, fun _ => rfl, hs, rfl⟩

/-- Settles O46: the refusal is that of an idle core with a recorded load, or of a core whose run has
ended. -/
theorem secondLoadIsRefused : Obligations.SecondLoadIsRefused := by
  refine fun s program rest hc => ⟨fun hs hl => ?_, fun hs => ?_⟩
  · rw [step_of_load (by simp [hs]) hc]
    exact performLoad_of_called hs hl
  · have hr : s.status ≠ .running := by rcases hs with h | ⟨k, h⟩ <;> simp [h]
    rw [step_of_load hr hc]
    exact performLoad_of_ended hs

/-! A run on a core that was never loaded -/

/-- A run that starts at a cell with the byte 0x00 halts in its first iteration, if that is not
cancelled and the host phase does not write the cell (R103, R120). -/
theorem run_halts_at_zero_cell {s : State} {rest : List HostCall} {a : AdapterAnswer}
    {answers : List AdapterAnswer} (hs : s.status = .idle ∨ s.status = .halted)
    (hc : s.calls = .run :: rest) (hadapter : s.adapter = a :: answers) (ha : a.cancel = false)
    (hpc : s.pc.toNat < 65535) (hinput : s.pc.toNat ≠ 0x0100)
    (hzero : s.mem.get s.pc.toNat = 0x00#8) :
    ∃ t, ReachesIn 2 s t ∧ t.status = .halted ∧ t.pc.toNat = s.pc.toNat + 1 ∧ RegsSame s t := by
  obtain ⟨u, hrun, hrunning, hupc, hregs, hmem, _, _, huadapter, _⟩ :=
    (runResumesAfterHaltAndIsRefusedAfterFailure s rest hc).1 hs
  have hanswer : u.answer = a := answer_of_adapter_cons (huadapter.trans hadapter)
  have hfetches : u.Fetches := ⟨hrunning, by rw [hanswer, ha]⟩
  have hbyte : u.hostPhase.mem.get u.pc.toNat = 0x00#8 := by
    rw [hupc, hostPhase_memSameBut u _ hinput, hmem, hzero]
  obtain ⟨t, hhalt, hhalted, htpc, ⟨hregs', _⟩, _⟩ :=
    haltIterationFollowsItsRule u hfetches (sees_singleton (hupc ▸ hpc) hbyte)
  exact ⟨t, reachesIn_succ_of_step hrun (reachesIn_succ_of_step hhalt (reachesIn_zero t)), hhalted,
    hupc ▸ htpc, fun r => (hregs' r).trans (hregs r)⟩

/-- Settles O48: a core that was never loaded starts at 0x0000, where every cell is 0x00. -/
theorem runWithoutLoadHaltsInItsFirstIteration :
    Obligations.RunWithoutLoadHaltsInItsFirstIteration := by
  intro input answers
  obtain ⟨t, ht, hhalted, hpc, hregs⟩ := run_halts_at_zero_cell
    (s := { State.reset with calls := [.run], adapter := ⟨input, false⟩ :: answers })
    (.inl rfl) rfl rfl rfl (show 0 < 65535 by decide) (show 0 ≠ 0x0100 by decide) rfl
  exact ⟨t, ht, hhalted, BitVec.eq_of_toNat_eq hpc, fun r => (hregs r).trans (reset_readReg r)⟩

end Sys2Proof.Proofs
